-- ==== Sys2Proof/Word.lean ====
section
/-! DEFINITION. The unit of information: the quad (spec/00_scope.md R10). -/

namespace Sys2Proof

/-- A quad is an integer in 0..3, "the sole unit of information everywhere" (R10). It has no bits (R12, R91) and no
sign (R13); no value outside 0..3 can be held or computed (R22). -/
abbrev Quad := Fin 4

/-- The quad of a natural number, reduced modulo 4. Every arithmetic result is reduced here and nowhere else (R12:
"No implicit wrap is ever meant"). -/
abbrev quadOfNat (n : Nat) : Quad := Fin.ofNat 4 n

end Sys2Proof
end

