-- ==== Sys2Proof/Syntax.lean ====
section
/-! DEFINITION. The instruction word and the instructions of the opcode table (spec/30_encoding.md R90, R91, R101). -/

namespace Sys2Proof

/-- The six positions of an instruction word, w[0] to w[5] (R91), over any type of digit. -/
structure Word6 (α : Type) where
  /-- w[0], `instr0`: the class -/
  cls : α
  /-- w[1], `instr1`: the operation within the class -/
  subop : α
  /-- w[2], `RNF0`: operand kind of A -/
  rnf0 : α
  /-- w[3], `RNF1`: operand kind of B -/
  rnf1 : α
  /-- w[4], `operandA` -/
  a : α
  /-- w[5], `operandB` -/
  b : α
  deriving DecidableEq, Repr

/-- A machine word: six quads (R90). -/
abbrev InstrWord := Word6 Quad

/-- Six integers that nobody has checked yet, as a host hands them to the loader (spec/20_memory.md R74, R75). -/
abbrev RawWord := Word6 Nat

/-- The operand kinds selected by an RNF quad (R93). -/
inductive OperandKind where
  /-- RNF = 0: the register (x,0) -/
  | register
  /-- RNF = 1: the flag cell (x,0) -/
  | flag
  /-- RNF = 2: the operand field itself -/
  | immediate
  /-- RNF = 3: no kind is selected; the OPEN parameter `rnf3Value` -/
  | reserved
  deriving DecidableEq, Repr

/-- The 16 instructions (R101). Each carries the operand kinds of A and B and the fields A and B as they stand in its
word, used or not (R105); HLT is fetched without operand fields (R98, R100). -/
inductive Instr where
  | add (k0 k1 : OperandKind) (a b : Quad)
  | sub (k0 k1 : OperandKind) (a b : Quad)
  | mul (k0 k1 : OperandKind) (a b : Quad)
  | div (k0 k1 : OperandKind) (a b : Quad)
  | min (k0 k1 : OperandKind) (a b : Quad)
  | max (k0 k1 : OperandKind) (a b : Quad)
  | mod (k0 k1 : OperandKind) (a b : Quad)
  | not (k0 k1 : OperandKind) (a b : Quad)
  | load (k0 k1 : OperandKind) (a b : Quad)
  | store (k0 k1 : OperandKind) (a b : Quad)
  | copy (k0 k1 : OperandKind) (a b : Quad)
  | hlt
  | call (k0 k1 : OperandKind) (a b : Quad)
  | jmp (k0 k1 : OperandKind) (a b : Quad)
  | jcmp (k0 k1 : OperandKind) (a b : Quad)
  | ret (k0 k1 : OperandKind) (a b : Quad)
  deriving DecidableEq, Repr

end Sys2Proof
end

