-- ==== Sys2Proof/WellFormed.lean ====
section
/-! DEFINITION. What is checked, and where. Inside the machine nothing is: every word of six quads is an instruction and
every term of `Instr` is legal (spec/30_encoding.md R103, R104). The checks stand at the boundary: a raw word holds quads
only and an image fits memory (spec/20_memory.md R75), and the assembler emits twelve operand layouts only (R102, R112). -/

namespace Sys2Proof

/-- Every position holds an integer in 0..3 (spec/20_memory.md R75 (b), spec/00_scope.md R22). -/
def RawWord.wellFormed (w : RawWord) : Bool :=
  w.cls < 4 && w.subop < 4 && w.rnf0 < 4 && w.rnf1 < 4 && w.a < 4 && w.b < 4

/-- The image fits the 64 cells, six quads a word (spec/20_memory.md R75 (a), R68). -/
def imageFits (code : List RawWord) : Bool := 6 * code.length ≤ 64

/-- An image a host may load (spec/20_memory.md R75). -/
def imageWellFormed (code : List RawWord) : Bool := imageFits code && code.all RawWord.wellFormed

/-- The instruction is one the assembler can emit: the layout of R102, and no class-3 mnemonic (R112). -/
def Instr.assemblerForm (i : Instr) : Bool :=
  match i with
  | .add k0 k1 _ _ => k0 == .register && k1 == .register
  | .sub k0 k1 _ _ => k0 == .register && k1 == .register
  | .mul k0 k1 _ _ => k0 == .register && k1 == .register
  | .div k0 k1 _ _ => k0 == .register && k1 == .register
  | .min k0 k1 _ _ => k0 == .register && k1 == .register
  | .max k0 k1 _ _ => k0 == .register && k1 == .register
  | .mod k0 k1 _ _ => k0 == .register && k1 == .register
  | .not k0 k1 _ b => k0 == .register && k1 == .register && b == 0
  | .load k0 k1 _ _ => k0 == .register && k1 == .immediate
  | .store k0 k1 _ _ => k0 == .register && k1 == .register
  | .copy k0 k1 _ _ => k0 == .register && k1 == .register
  | .hlt => true
  | .call _ _ _ _ => false
  | .jmp _ _ _ _ => false
  | .jcmp _ _ _ _ => false
  | .ret _ _ _ _ => false

end Sys2Proof
end

