-- ==== Sys2Proof/Decode.lean ====
section
/-! DEFINITION. Decoding and encoding of instruction words (spec/30_encoding.md sections 1 to 5). Decoding is total: each
of the 4096 words is an instruction (R103). Only integers that are no quads are rejected, by name (spec/20_memory.md R75). -/

namespace Sys2Proof

/-- Why a raw word is no machine word. -/
inductive DecodeError where
  /-- a position holds an integer outside 0..3, the condition `OutOfDomain` of spec/20_memory.md R75 -/
  | outOfDomain
  deriving DecidableEq, Repr

/-- The operand kind an RNF quad selects (R93). -/
def OperandKind.ofRnf (r : Quad) : OperandKind :=
  match r with
  | 0 => .register
  | 1 => .flag
  | 2 => .immediate
  | 3 => .reserved

/-- The instruction a word stands for: its opcode is the pair (w[0], w[1]) of the table R101. HLT has no operands, so its
operand positions are ignored (R105). -/
def decode (w : InstrWord) : Instr :=
  let k0 := OperandKind.ofRnf w.rnf0
  let k1 := OperandKind.ofRnf w.rnf1
  match w.cls, w.subop with
  | 0, 0 => .add k0 k1 w.a w.b
  | 0, 1 => .sub k0 k1 w.a w.b
  | 0, 2 => .mul k0 k1 w.a w.b
  | 0, 3 => .div k0 k1 w.a w.b
  | 1, 0 => .min k0 k1 w.a w.b
  | 1, 1 => .max k0 k1 w.a w.b
  | 1, 2 => .mod k0 k1 w.a w.b
  | 1, 3 => .not k0 k1 w.a w.b
  | 2, 0 => .load k0 k1 w.a w.b
  | 2, 1 => .store k0 k1 w.a w.b
  | 2, 2 => .copy k0 k1 w.a w.b
  | 2, 3 => .hlt
  | 3, 0 => .call k0 k1 w.a w.b
  | 3, 1 => .jmp k0 k1 w.a w.b
  | 3, 2 => .jcmp k0 k1 w.a w.b
  | 3, 3 => .ret k0 k1 w.a w.b

/-- The quads of a raw word, each reduced modulo 4; meant for words that `RawWord.wellFormed` accepts, which it leaves
as they are. -/
def RawWord.quads (w : RawWord) : InstrWord :=
  { cls := quadOfNat w.cls, subop := quadOfNat w.subop, rnf0 := quadOfNat w.rnf0,
    rnf1 := quadOfNat w.rnf1, a := quadOfNat w.a, b := quadOfNat w.b }

/-- A raw word checked at the boundary (spec/20_memory.md R75 (b)). -/
def RawWord.check (w : RawWord) : Except DecodeError InstrWord :=
  if w.wellFormed then .ok w.quads else .error .outOfDomain

/-- Decoding of any six integers: an instruction, or the rejection of integers that are no quads. -/
def decodeRaw (w : RawWord) : Except DecodeError Instr :=
  match w.check with
  | .ok q => .ok (decode q)
  | .error e => .error e

/-- The RNF quad of an operand kind (R93). -/
def OperandKind.rnf (k : OperandKind) : Quad :=
  match k with
  | .register => 0
  | .flag => 1
  | .immediate => 2
  | .reserved => 3

/-- The word of an instruction with operand fields, from the fields of R91. -/
def operandWord (cls subop : Quad) (k0 k1 : OperandKind) (a b : Quad) : InstrWord :=
  { cls := cls, subop := subop, rnf0 := k0.rnf, rnf1 := k1.rnf, a := a, b := b }

/-- The word of an instruction, written from the opcode table R101; HLT is (2,3,0,0,0,0), as the assembler emits it
(R102, R110). -/
def encode (i : Instr) : InstrWord :=
  match i with
  | .add k0 k1 a b => operandWord 0 0 k0 k1 a b
  | .sub k0 k1 a b => operandWord 0 1 k0 k1 a b
  | .mul k0 k1 a b => operandWord 0 2 k0 k1 a b
  | .div k0 k1 a b => operandWord 0 3 k0 k1 a b
  | .min k0 k1 a b => operandWord 1 0 k0 k1 a b
  | .max k0 k1 a b => operandWord 1 1 k0 k1 a b
  | .mod k0 k1 a b => operandWord 1 2 k0 k1 a b
  | .not k0 k1 a b => operandWord 1 3 k0 k1 a b
  | .load k0 k1 a b => operandWord 2 0 k0 k1 a b
  | .store k0 k1 a b => operandWord 2 1 k0 k1 a b
  | .copy k0 k1 a b => operandWord 2 2 k0 k1 a b
  | .hlt => { cls := 2, subop := 3, rnf0 := 0, rnf1 := 0, a := 0, b := 0 }
  | .call k0 k1 a b => operandWord 3 0 k0 k1 a b
  | .jmp k0 k1 a b => operandWord 3 1 k0 k1 a b
  | .jcmp k0 k1 a b => operandWord 3 2 k0 k1 a b
  | .ret k0 k1 a b => operandWord 3 3 k0 k1 a b

/-- A row of the opcode table as R114 reads it: the two digits of `match` that `mask` compares, and the mnemonic. -/
structure OpcodeRow where
  cls : Quad
  subop : Quad
  mnemonic : String
  deriving DecidableEq, Repr

/-- The opcode table R101, row by row. -/
def opcodeTable : List OpcodeRow :=
  [⟨0, 0, "ADD"⟩, ⟨0, 1, "SUB"⟩, ⟨0, 2, "MUL"⟩, ⟨0, 3, "DIV"⟩,
   ⟨1, 0, "MIN"⟩, ⟨1, 1, "MAX"⟩, ⟨1, 2, "MOD"⟩, ⟨1, 3, "NOT"⟩,
   ⟨2, 0, "LOAD"⟩, ⟨2, 1, "STORE"⟩, ⟨2, 2, "COPY"⟩, ⟨2, 3, "HLT"⟩,
   ⟨3, 0, "CALL"⟩, ⟨3, 1, "JMP"⟩, ⟨3, 2, "JCMP"⟩, ⟨3, 3, "RET"⟩]

/-- A word is the row's instruction: every compared position holds the digit of `match` (R114). -/
def OpcodeRow.matchesWord (r : OpcodeRow) (w : InstrWord) : Bool := r.cls == w.cls && r.subop == w.subop

/-- The mnemonic of an instruction (R101). -/
def Instr.mnemonic (i : Instr) : String :=
  match i with
  | .add _ _ _ _ => "ADD"
  | .sub _ _ _ _ => "SUB"
  | .mul _ _ _ _ => "MUL"
  | .div _ _ _ _ => "DIV"
  | .min _ _ _ _ => "MIN"
  | .max _ _ _ _ => "MAX"
  | .mod _ _ _ _ => "MOD"
  | .not _ _ _ _ => "NOT"
  | .load _ _ _ _ => "LOAD"
  | .store _ _ _ _ => "STORE"
  | .copy _ _ _ _ => "COPY"
  | .hlt => "HLT"
  | .call _ _ _ _ => "CALL"
  | .jmp _ _ _ _ => "JMP"
  | .jcmp _ _ _ _ => "JCMP"
  | .ret _ _ _ _ => "RET"

/-- Bit `k` of `w` as a quad 0 or 1. -/
def bitQuad (w k : Nat) : Quad := quadOfNat (w / 2 ^ k % 2)

/-- Digit `j` of `w` in base 4, the first the least significant. -/
def digitQuad (w j : Nat) : Quad := quadOfNat (w / 4 ^ j)

/-- The six quads of a number that the host numbers by spec/opcode_table.json. The spec gives a quad no bits (R91, R114),
so this is the host interface's convention and no fact of the hardware (DESIGN CHOICE, log 13). A number of at most 8 bits
is one of the table's four eight-bit rows (their `fixed` and `fields`), whose bits are the characters of `encoding`
"class subop r0 r1 a b": class is bit 7, subop bit 6, RNF0 bit 5, RNF1 bit 3, A bit 1 and B bit 0, while bits 4 and 2 are
the digits in the names r0 and r1. A longer number holds quad j in bits 2j+1 and 2j. -/
def tableWord (nbits w : Nat) : InstrWord :=
  if nbits ≤ 8 then
    { cls := bitQuad w 7, subop := bitQuad w 6, rnf0 := bitQuad w 5,
      rnf1 := bitQuad w 3, a := bitQuad w 1, b := bitQuad w 0 }
  else
    { cls := digitQuad w 0, subop := digitQuad w 1, rnf0 := digitQuad w 2,
      rnf1 := digitQuad w 3, a := digitQuad w 4, b := digitQuad w 5 }

/-- The instruction the decoder reads from a number that the host numbers by spec/opcode_table.json. -/
def decodeTableWord (nbits w : Nat) : Option Instr := some (decode (tableWord nbits w))

end Sys2Proof
end

