-- ==== Sys2Proof/Machine/Primitives.lean ====
section
/-! DEFINITION. The six quaternary primitives (spec/00_scope.md R15 to R20), the one-hot decoders and the multiplexer built
from them (spec/20_memory.md R60 to R62). A group of signals is a function of its index; nothing here is state. -/

namespace Sys2Proof.Machine

/-- `MIN(a,b)`, the integer minimum (R15). -/
def qmin (a b : Quad) : Quad := if a.val ≤ b.val then a else b

/-- `MAX(a,b)`, the integer maximum (R16). -/
def qmax (a b : Quad) : Quad := if a.val ≤ b.val then b else a

/-- `NOT(a) = 3 - a` (R17). -/
def qnot (a : Quad) : Quad := quadOfNat (3 - a.val)

/-- `COM(a,b)`, the truncated subtraction `max(a - b, 0)` (R18). -/
def qcom (a b : Quad) : Quad := quadOfNat (a.val - b.val)

/-- `MOD(a,b) = (a + b) mod 4`, an addition and not a remainder (R19). -/
def qmod (a b : Quad) : Quad := quadOfNat (a.val + b.val)

/-- `EQ(a,b)`: 3 if equal, else 0 (R20). -/
def qeq (a b : Quad) : Quad := if a = b then 3 else 0

/-- The `MAX`-reduction over four candidates (00_scope.md, Glossary "Multiplex"). -/
def reduce4 (x : Quad → Quad) : Quad := qmax (x 0) (qmax (x 1) (qmax (x 2) (x 3)))

/-- `decode4(addr, enable)`, signal `s_i = MIN(EQ(i, addr), enable)` (R60). -/
def decode4 (addr enable i : Quad) : Quad := qmin (qeq i addr) enable

/-- `decode16(addr0, addr1, enable)`, signal `s[4*j + k]`: two cascaded `decode4` (R62). -/
def decode16 (addr0 addr1 enable j k : Quad) : Quad := decode4 addr1 (decode4 addr0 enable j) k

end Sys2Proof.Machine
end

