-- ==== Sys2Proof/Machine/Alu.lean ====
section
/-! DEFINITION. The results of the ALU's units, as the spec builds them from the primitives (spec/41_arithmetic.md R150 to
R153, spec/42_logic.md R171 to R174). Their condition flags are in Flags.lean. -/

namespace Sys2Proof.Machine

/-- Half-adder `sum = MOD(A, B)` (R150). -/
def adderSum (a b : Quad) : Quad := qmod a b

/-- Half-subtractor `diff = MOD(MOD(A, NOT(B)), 1)` (R151). -/
def subDiff (a b : Quad) : Quad := qmod (qmod a (qnot b)) 1

/-- The partial values `0, A, MOD(A,A), MOD(MOD(A,A),A)`, that is `k * A mod 4` (R152, R153). -/
def multiple (k a : Quad) : Quad :=
  match k with
  | 0 => 0
  | 1 => a
  | 2 => qmod a a
  | 3 => qmod (qmod a a) a

/-- Half-multiplier product: the partial values of A selected by the one-hot decode of B (R152). -/
def mulProduct (a b : Quad) : Quad := reduce4 fun k => qmin (decode4 b 3 k) (multiple k a)

/-- Half-divider quotient: the greatest k whose multiple of B, modulo 4, does not exceed A, or 0 (R153). The comparator is
the boolean "candidate ≤ A" of the spec's decision D6, conflict C4 (log 8). -/
def divQuotient (a b : Quad) : Quad := reduce4 fun k => if (multiple k b).val ≤ a.val then k else 0

/-- The fourth logic operation, `NOT(MAX(V1, V2))` (R174). -/
def notMax (a b : Quad) : Quad := qnot (qmax a b)

end Sys2Proof.Machine
end

