-- ==== Sys2Proof/Machine/Flags.lean ====
section
/-! DEFINITION. Every condition flag the spec computes, and the units as pairs (flag, result) (spec/41_arithmetic.md R150 to
R153, spec/40_execution.md R131). -/

namespace Sys2Proof.Machine

/-- Half-adder `carry = MIN(1, MAX(COM(A, NOT(B)), COM(B, NOT(A))))` (R150). -/
def addCarry (a b : Quad) : Quad := qmin 1 (qmax (qcom a (qnot b)) (qcom b (qnot a)))

/-- Half-subtractor `borrow = MIN(1, COM(B, A))` (R151). -/
def subBorrow (a b : Quad) : Quad := qmin 1 (qcom b a)

/-- The "A≥2 indicator", 1 when true (R152; the value 1 is the spec's decision D9, log 9). -/
def atLeastTwo (a : Quad) : Quad := if 2 ≤ a.val then 1 else 0

/-- Half-multiplier carry: `MIN` of the two indicators (R152). -/
def mulCarry (a b : Quad) : Quad := qmin (atLeastTwo a) (atLeastTwo b)

/-- Half-divider remainder `half_subtractor(A, m[q]).diff`, with the selected multiple m[q] (R153; the spec's decision D7,
conflict C3, log 8). -/
def divRemainder (a b : Quad) : Quad := subDiff a (multiple (divQuotient a b) b)

/-- The flag of a logic operation, and of classes 2 and 3, which select no unit (R131, R170; the spec's decision D10,
log 7). -/
def noFlag : Quad := 0

/-- A unit: two quads in, the pair (flag, result) out (R131). -/
abbrev Unit2 := Quad → Quad → Quad × Quad

/-- (carry, sum) (R150). -/
def halfAdder (a b : Quad) : Quad × Quad := (addCarry a b, adderSum a b)

/-- (borrow, diff) (R151). -/
def halfSubtractor (a b : Quad) : Quad × Quad := (subBorrow a b, subDiff a b)

/-- (carry, product) (R152). -/
def halfMultiplier (a b : Quad) : Quad × Quad := (mulCarry a b, mulProduct a b)

/-- (remainder, quotient): the remainder is the flag and the quotient the result (R153, R157; decision D8, log 8). -/
def halfDivider (a b : Quad) : Quad × Quad := (divRemainder a b, divQuotient a b)

/-- (0, MIN) (R171). -/
def minUnit (a b : Quad) : Quad × Quad := (noFlag, qmin a b)

/-- (0, MAX) (R172). -/
def maxUnit (a b : Quad) : Quad × Quad := (noFlag, qmax a b)

/-- (0, MOD) (R173). -/
def modUnit (a b : Quad) : Quad × Quad := (noFlag, qmod a b)

/-- (0, NOT(MAX)) (R174). -/
def notUnit (a b : Quad) : Quad × Quad := (noFlag, notMax a b)

end Sys2Proof.Machine
end

