-- ==== Sys2Proof/Config.lean ====
section
/-! DEFINITION. The two OPEN parameters of the spec (spec/00_scope.md R9, spec/92_eei_decisions.md D5 and D12). They are
plain data that State carries, so that every statement about every state holds for every value of them. -/

namespace Sys2Proof

/-- The fetch length of class-3 words, the parameter `fnClassLength` with its two values (R98, D12). -/
inductive FnClassLength where
  /-- class-3 words are fetched as 2 quads -/
  | two
  /-- class-3 words are fetched as 6 quads, the spec's value -/
  | six
  deriving DecidableEq, Repr

/-- The parameters a machine is built with; no step changes them. -/
structure Config where
  /-- value of an operand whose RNF is 3 (R93, D5) -/
  rnf3Value : Quad
  /-- fetch length of class-3 words (R98, D12) -/
  fnClassLength : FnClassLength
  deriving DecidableEq, Repr

/-- The defaults the spec gives: `rnf3Value` 0 and `fnClassLength` 6 (R9). -/
def Config.specDefault : Config := { rnf3Value := 0, fnClassLength := .six }

end Sys2Proof
end

