-- ==== Sys2Proof/Machine/State.lean ====
section
/-! DEFINITION. The machine's state as plain data, all the spec gives it (spec/10_state.md, spec/20_memory.md R63), the
reasons a step can stop, and the state after reset (R50). -/

namespace Sys2Proof.Machine

/-- Four like things selected by one quad, the shape of a register-file row, of a register file and of each memory level
(spec/10_state.md R32, spec/20_memory.md R64). -/
structure Four (α : Type) where
  c0 : α
  c1 : α
  c2 : α
  c3 : α
  deriving DecidableEq, Repr

/-- A register file: 16 cells, four rows of four columns; the general registers and the flags are two of it (R32, R38). -/
abbrev RegFile := Four (Four Quad)

/-- Three quad digits: a memory address, and the program counter's digits (spec/20_memory.md R63, spec/10_state.md R43). -/
structure Address where
  low : Quad
  mid : Quad
  high : Quad
  deriving DecidableEq, Repr

/-- Memory as a list of (linear address, quad) in one canonical form: addresses strictly rising and below 64, no entry
equal to 0, which an unlisted address reads as (`Memory.wf`; R50, R66: "reading a never-written address returns 0"). A cell
is a quad, not a byte: the block has no bytes (R22, R68). -/
abbrev Memory := List (Nat × Quad)

/-- The state of the machine between two steps. The FSM is then in FETCH and the instruction latch is not architectural
(R46, R47), so neither is here: `FsmState` of Machine/Fsm.lean has both. -/
structure State where
  /-- the 64 memory cells (spec/20_memory.md R63) -/
  mem : Memory
  /-- `var_reg`, the 16 register cells; R0..R3 are the cells (0,0)..(3,0) (R32, R34) -/
  reg : RegFile
  /-- `flag_reg`, the 16 flag cells; (3,3) is the halt flag (R38 to R41) -/
  flag : RegFile
  /-- the program counter's three digits (R43) -/
  pc : Address
  /-- the MODEL's own field: the spec's two OPEN parameters, fixed for a machine (spec/00_scope.md R9; log 4, log 5) -/
  cfg : Config
  deriving DecidableEq, Repr

/-- Why a machine has no next state. -/
inductive Fault where
  /-- the machine is halted, so it has no step (spec/40_execution.md R121, R122). Raised by `step`, by a meaning invoked on
  a halted machine and by `fsmTick`. It is the spec's own end of a run: safe. -/
  | halted
  deriving DecidableEq, Repr

/-- What is refused and why. -/
inductive Refusal where
  /-- an instruction without a meaning in this model; no arm of `exec` answers it. Safe. -/
  | notModelled (mnemonic : String)
  /-- a program image holds an integer that is no quad: the host's `OutOfDomain` (spec/20_memory.md R75 (b)). Raised by
  `State.load` only, never by a step. Safe. -/
  | outOfDomain
  /-- a program image has more than 64 quads (spec/20_memory.md R75 (a)). Raised by `State.load` only, never by a step.
  Safe. -/
  | imageTooLong
  /-- the host loads after the first step (spec/60_exceptions.md R244, spec/20_memory.md R76). Raised by a move of the host
  (`Session.move`) only, never by a step. Safe. -/
  | loadDuringRun
  deriving DecidableEq, Repr

/-- Sixteen cells of value 0, each as constructed (R30). -/
def RegFile.zero : RegFile := ⟨⟨0, 0, 0, 0⟩, ⟨0, 0, 0, 0⟩, ⟨0, 0, 0, 0⟩, ⟨0, 0, 0, 0⟩⟩

/-- The machine right after reset: every cell 0, pc 0, not halted (R50, spec/70_reset_and_hazards.md R260), the parameters
at the spec's defaults (spec/00_scope.md R9). No program is loaded (R263: the host loads it next). -/
def State.reset : State :=
  { mem := [], reg := RegFile.zero, flag := RegFile.zero, pc := { low := 0, mid := 0, high := 0 },
    cfg := Config.specDefault }

end Sys2Proof.Machine
end

