-- ==== Sys2Proof/Machine/Ops.lean ====
section
/-! DEFINITION. The named operations over the register files, memory and the program counter, the fetch of an instruction,
and the guard of a halted machine. The hardware has no exception to take and none to return from (spec/60_exceptions.md
R230, R235, R236), so there is no operation for either. -/

namespace Sys2Proof.Machine

/-- The child that a digit selects. -/
def Four.get {α : Type} (f : Four α) (i : Quad) : α :=
  match i with
  | 0 => f.c0
  | 1 => f.c1
  | 2 => f.c2
  | 3 => f.c3

/-- The four children with one of them replaced. -/
def Four.set {α : Type} (f : Four α) (i : Quad) (v : α) : Four α :=
  match i with
  | 0 => { f with c0 := v }
  | 1 => { f with c1 := v }
  | 2 => { f with c2 := v }
  | 3 => { f with c3 := v }

/-! Register files (spec/10_state.md sections 2 to 4). -/

/-- The value of cell (row, column). -/
def RegFile.read (f : RegFile) (row col : Quad) : Quad := (f.get row).get col

/-- The file with cell (row, column) set. -/
def RegFile.write (f : RegFile) (row col v : Quad) : RegFile := f.set row ((f.get row).set col v)

/-- The file's one operation `run(addr0, addr1, enable, value)`: a nonzero enable sets the addressed cell, and the answer is
that cell's value after any write (R33). -/
def RegFile.run (f : RegFile) (row col enable v : Quad) : Quad × RegFile :=
  let f' := if enable = 0 then f else f.write row col v
  (f'.read row col, f')

/-- The row-major dump of a file, 4 rows of 4 (R36). -/
def RegFile.dump (f : RegFile) : List (List Quad) :=
  [[f.c0.c0, f.c0.c1, f.c0.c2, f.c0.c3], [f.c1.c0, f.c1.c1, f.c1.c2, f.c1.c3],
   [f.c2.c0, f.c2.c1, f.c2.c2, f.c2.c3], [f.c3.c0, f.c3.c1, f.c3.c2, f.c3.c3]]

/-- Register R`x`, the cell (x,0) (R34; the spec's decision D3, log 6). -/
def State.readReg (s : State) (x : Quad) : Quad := (s.reg.run x 0 0 0).1

/-- Write register R`x` (R34). -/
def State.writeReg (s : State) (x v : Quad) : State := { s with reg := (s.reg.run x 0 3 v).2 }

/-- Flag cell (row, column) (R39, R40). -/
def State.readFlag (s : State) (row col : Quad) : Quad := (s.flag.run row col 0 0).1

/-- Write flag cell (row, column) (R39, R40). -/
def State.writeFlag (s : State) (row col v : Quad) : State := { s with flag := (s.flag.run row col 3 v).2 }

/-- What the host observes of the general registers (spec/10_state.md R36, spec/00_scope.md R23). -/
def State.dumpRegs (s : State) : List (List Quad) := s.reg.dump

/-- What the host observes of the flags (spec/10_state.md R36, spec/00_scope.md R23). -/
def State.dumpFlags (s : State) : List (List Quad) := s.flag.dump

/-- `halted() = (flag[3,3] != 0)` (spec/40_execution.md R121). -/
def State.halted (s : State) : Bool := s.readFlag 3 3 != 0

/-! Addresses and the program counter (spec/20_memory.md R63, spec/10_state.md R43, R44). -/

/-- `low + 4*mid + 16*high` (R63, R43). -/
def Address.linear (a : Address) : Nat := a.low.val + 4 * a.mid.val + 16 * a.high.val

/-- The digits of a linear address by successive mod and div by 4 (R63, R74). -/
def Address.ofLinear (n : Nat) : Address :=
  { low := quadOfNat (n % 4), mid := quadOfNat (n / 4 % 4), high := quadOfNat (n / 16 % 4) }

/-- The counter's ripple-carry `add(add0, add1, add2)`; carry3 is discarded (R44). -/
def Address.add (a : Address) (add0 add1 add2 : Quad) : Address :=
  let r1 := halfAdder a.low add0
  let r2 := halfAdder a.mid (qmax r1.1 add1)
  let r3 := halfAdder a.high (qmax r2.1 add2)
  { low := r1.2, mid := r2.2, high := r3.2 }

/-- The advance by one, `add(1,0,0)` (R44, spec/40_execution.md R124). -/
def Address.succ (a : Address) : Address := a.add 1 0 0

/-- `n` advances by one. -/
def Address.advance (a : Address) (n : Nat) : Address :=
  match n with
  | 0 => a
  | n + 1 => a.succ.advance n

/-! Memory (spec/20_memory.md section 2). -/

/-- The quad an unlisted cell holds: 0, its value at reset (spec/10_state.md R50, spec/20_memory.md R66). -/
def unlistedQuad : Quad := 0

/-- The quad at a linear address. -/
def Memory.readAt (m : Memory) (n : Nat) : Quad :=
  match m with
  | [] => unlistedQuad
  | (k, v) :: rest => if k = n then v else Memory.readAt rest n

/-- Put a cell before a list whose addresses are all above it; a cell equal to an unlisted one is not listed. -/
def Memory.putFront (n : Nat) (v : Quad) (m : Memory) : Memory := if v = unlistedQuad then m else (n, v) :: m

/-- Memory with the quad at a linear address set, in canonical form again. -/
def Memory.writeAt (m : Memory) (n : Nat) (v : Quad) : Memory :=
  match m with
  | [] => Memory.putFront n v []
  | (k, u) :: rest =>
    if n < k then Memory.putFront n v ((k, u) :: rest)
    else if n = k then Memory.putFront n v rest
    else (k, u) :: Memory.writeAt rest n v

/-- The canonical form from address `lo` on: addresses strictly rising from `lo`, below 64, and no cell listed that equals an
unlisted one. -/
def Memory.wfFrom (lo : Nat) (m : Memory) : Bool :=
  match m with
  | [] => true
  | (k, v) :: rest => decide (lo ≤ k) && decide (k < 64) && decide (v ≠ unlistedQuad) && Memory.wfFrom (k + 1) rest

/-- The canonical form of memory. -/
def Memory.wf (m : Memory) : Bool := Memory.wfFrom 0 m

/-- The quad at a digit triple. Every triple names one of the 64 cells (R63), so no access falls outside memory. -/
def Memory.read (m : Memory) (a : Address) : Quad := Memory.readAt m a.linear

/-- Memory with the quad at a digit triple set. -/
def Memory.write (m : Memory) (a : Address) (v : Quad) : Memory := Memory.writeAt m a.linear v

/-- Memory's one operation `run(low, mid, high, enable, value)` (R65). -/
def Memory.run (m : Memory) (a : Address) (enable v : Quad) : Quad × Memory :=
  let m' := if enable = 0 then m else Memory.write m a v
  (Memory.read m' a, m')

/-! The instruction-length resolver and FETCH (spec/30_encoding.md section 4, spec/40_execution.md section 2). -/

/-- `rom_instr(instr0, instr1)` as (count_low, count_high): class by `decode4`, subop by a `decode4` gated by the code-class
line, the lines of opcodes with operands ORed by `MAX` and clamped by `MIN` (R97). The lines are those of the table R98, the
spec's decision D12 (log 10); the function-class line counts where the parameter `fnClassLength` is 6 (log 5). -/
def romInstr (cfg : Config) (instr0 instr1 : Quad) : Quad × Quad :=
  let c := decode4 instr0 3
  let code := decode4 instr1 (c 2)
  let fn := match cfg.fnClassLength with
    | .two => 0
    | .six => c 3
  (qmin 1 (qmax (c 0) (qmax (c 1) (qmax (code 0) (qmax (code 1) (qmax (code 2) fn))))), 0)

/-- Extra-operand-word count, `count_low + 4*count_high` (R97). -/
def operandCount (cfg : Config) (instr0 instr1 : Quad) : Nat :=
  (romInstr cfg instr0 instr1).1.val + 4 * (romInstr cfg instr0 instr1).2.val

/-- Quads fetched: 2 where the count is 0, else 6 (R98, R99). -/
def fetchLength (cfg : Config) (instr0 instr1 : Quad) : Nat :=
  if operandCount cfg instr0 instr1 = 0 then 2 else 6

/-- One quad of FETCH: read at the pc with enable 0, then advance the pc by one (spec/40_execution.md R123, R124). -/
def State.fetchQuad (s : State) : Quad × State :=
  ((Memory.run s.mem s.pc 0 0).1, { s with pc := s.pc.succ })

/-- FETCH: two quads, then the resolver, then four more quads or the padding 0 (spec/40_execution.md R123,
spec/30_encoding.md R100). -/
def State.fetch (s : State) : InstrWord × State :=
  let f0 := s.fetchQuad
  let f1 := f0.2.fetchQuad
  if operandCount s.cfg f0.1 f1.1 = 0 then
    ({ cls := f0.1, subop := f1.1, rnf0 := 0, rnf1 := 0, a := 0, b := 0 }, f1.2)
  else
    let f2 := f1.2.fetchQuad
    let f3 := f2.2.fetchQuad
    let f4 := f3.2.fetchQuad
    let f5 := f4.2.fetchQuad
    ({ cls := f0.1, subop := f1.1, rnf0 := f2.1, rnf1 := f3.1, a := f4.1, b := f5.1 }, f5.2)

/-! The end of an instruction. -/

/-- The answer of an instruction whose effect is `t`, invoked in `s`: `t`, but a halted machine executes nothing
(spec/40_execution.md R122, spec/90_conflicts.md C9: "no FETCH, no EXECUTE"). -/
def State.unlessHalted (s t : State) : Host.Outcome State Fault Refusal :=
  if s.halted then .fault .halted else .next t

end Sys2Proof.Machine
end

