-- ==== Sys2Proof/Machine/Operands.lean ====
section
/-! DEFINITION. Operand resolution (spec/30_encoding.md R93 to R95) and the shapes of effect that the instructions share
(spec/40_execution.md R132 to R136). -/

namespace Sys2Proof.Machine

/-- `resolve(rnf, x)`: register (x,0), flag (x,0), the field itself, or the parameter `rnf3Value` (R94; log 4, log 6). -/
def State.resolve (s : State) (k : OperandKind) (x : Quad) : Quad :=
  match k with
  | .register => s.readReg x
  | .flag => s.readFlag x 0
  | .immediate => x
  | .reserved => s.cfg.rnf3Value

/-- The flag write that every instruction makes, `flag[A,0] <- f` (spec/40_execution.md R132; the spec's decision D11,
log 7). -/
def State.writeCondFlag (s : State) (a f : Quad) : State := s.writeFlag a 0 f

/-- An ALU instruction: both operands are read first (R129), then `flag[A,0] <- f` and `reg[A,0] <- VAL0` (R132, R133). -/
def State.aluEffect (unit : Unit2) (k0 k1 : OperandKind) (a b : Quad) (s : State) : State :=
  let r := unit (s.resolve k0 a) (s.resolve k1 b)
  (s.writeCondFlag a r.1).writeReg a r.2

/-- A move of the code class: `flag[a,0] <- 0` and `reg[dst,0] <- v`, with `v` read before (R190, R134, R129). -/
def State.moveEffect (a dst v : Quad) (s : State) : State :=
  (s.writeCondFlag a noFlag).writeReg dst v

end Sys2Proof.Machine
end

