-- ==== Sys2Proof/Machine/Arithmetic.lean ====
section
/-! DEFINITION. The arithmetic class: ADD, SUB, MUL, DIV (spec/41_arithmetic.md). -/

namespace Sys2Proof.Machine

/-- ADD: reg[A,0] <- (V1 + V2) mod 4, flag[A,0] <- carry (R154). -/
def execAdd (k0 k1 : OperandKind) (a b : Quad) (s : State) : Host.Outcome State Fault Refusal :=
  s.unlessHalted (s.aluEffect halfAdder k0 k1 a b)

/-- SUB: reg[A,0] <- (V1 - V2) mod 4, flag[A,0] <- borrow (R155). -/
def execSub (k0 k1 : OperandKind) (a b : Quad) (s : State) : Host.Outcome State Fault Refusal :=
  s.unlessHalted (s.aluEffect halfSubtractor k0 k1 a b)

/-- MUL: reg[A,0] <- (V1 * V2) mod 4, flag[A,0] <- carry (R156). -/
def execMul (k0 k1 : OperandKind) (a b : Quad) (s : State) : Host.Outcome State Fault Refusal :=
  s.unlessHalted (s.aluEffect halfMultiplier k0 k1 a b)

/-- DIV: reg[A,0] <- quotient, flag[A,0] <- remainder; a divisor 0 does not trap (R157). -/
def execDiv (k0 k1 : OperandKind) (a b : Quad) (s : State) : Host.Outcome State Fault Refusal :=
  s.unlessHalted (s.aluEffect halfDivider k0 k1 a b)

end Sys2Proof.Machine
end

