-- ==== Sys2Proof/Machine/Code.lean ====
section
/-! DEFINITION. The code class: LOAD, STORE, COPY, HLT (spec/43_code.md). None of them touches memory (R76). -/

namespace Sys2Proof.Machine

/-- LOAD: reg[A,0] <- V2, flag[A,0] <- 0; it does not read memory (R191). -/
def execLoad (_k0 k1 : OperandKind) (a b : Quad) (s : State) : Host.Outcome State Fault Refusal :=
  s.unlessHalted (s.moveEffect a a (s.resolve k1 b))

/-- STORE: reg[A,0] <- V2, flag[A,0] <- 0, as LOAD; "STORE does not address memory in this design" (R192). -/
def execStore (_k0 k1 : OperandKind) (a b : Quad) (s : State) : Host.Outcome State Fault Refusal :=
  s.unlessHalted (s.moveEffect a a (s.resolve k1 b))

/-- COPY: reg[B,0] <- V1, flag[A,0] <- 0, the flag row being the source's (R193). -/
def execCopy (k0 _k1 : OperandKind) (a b : Quad) (s : State) : Host.Outcome State Fault Refusal :=
  s.unlessHalted (s.moveEffect a b (s.resolve k0 a))

/-- HLT: flag[0,0] <- 0, since A is 0 by padding, and flag[3,3] <- 3 (R194). -/
def execHlt (s : State) : Host.Outcome State Fault Refusal :=
  s.unlessHalted ((s.writeCondFlag 0 noFlag).writeFlag 3 3 3)

end Sys2Proof.Machine
end

