-- ==== Sys2Proof/Machine/Function.lean ====
section
/-! DEFINITION. The function class: CALL, JMP, JCMP, RET, "decoded but wired to no effect" (spec/44_function.md R210). Each
makes the flag write of every instruction, flag[A,0] <- 0, and nothing else; none transfers control (R215). -/

namespace Sys2Proof.Machine

/-- CALL: flag[A,0] <- 0; no call is made and no return address saved (R211). -/
def execCall (_k0 _k1 : OperandKind) (a _b : Quad) (s : State) : Host.Outcome State Fault Refusal :=
  s.unlessHalted (s.writeCondFlag a noFlag)

/-- JMP: flag[A,0] <- 0; no jump (R212). -/
def execJmp (_k0 _k1 : OperandKind) (a _b : Quad) (s : State) : Host.Outcome State Fault Refusal :=
  s.unlessHalted (s.writeCondFlag a noFlag)

/-- JCMP: flag[A,0] <- 0; no comparison and no branch (R213). -/
def execJcmp (_k0 _k1 : OperandKind) (a _b : Quad) (s : State) : Host.Outcome State Fault Refusal :=
  s.unlessHalted (s.writeCondFlag a noFlag)

/-- RET: flag[A,0] <- 0; no return (R214). -/
def execRet (_k0 _k1 : OperandKind) (a _b : Quad) (s : State) : Host.Outcome State Fault Refusal :=
  s.unlessHalted (s.writeCondFlag a noFlag)

end Sys2Proof.Machine
end

