-- ==== Sys2Proof/Machine/Logic.lean ====
section
/-! DEFINITION. The logic class: MIN, MAX, MOD, NOT (spec/42_logic.md). Each writes 0 to flag[A,0] (R170). -/

namespace Sys2Proof.Machine

/-- MIN: reg[A,0] <- MIN(V1, V2), flag[A,0] <- 0 (R171). -/
def execMin (k0 k1 : OperandKind) (a b : Quad) (s : State) : Host.Outcome State Fault Refusal :=
  s.unlessHalted (s.aluEffect minUnit k0 k1 a b)

/-- MAX: reg[A,0] <- MAX(V1, V2), flag[A,0] <- 0 (R172). -/
def execMax (k0 k1 : OperandKind) (a b : Quad) (s : State) : Host.Outcome State Fault Refusal :=
  s.unlessHalted (s.aluEffect maxUnit k0 k1 a b)

/-- MOD: reg[A,0] <- (V1 + V2) mod 4, flag[A,0] <- 0 (R173). -/
def execMod (k0 k1 : OperandKind) (a b : Quad) (s : State) : Host.Outcome State Fault Refusal :=
  s.unlessHalted (s.aluEffect modUnit k0 k1 a b)

/-- NOT: reg[A,0] <- 3 - MAX(V1, V2), flag[A,0] <- 0 (R174). -/
def execNot (k0 k1 : OperandKind) (a b : Quad) (s : State) : Host.Outcome State Fault Refusal :=
  s.unlessHalted (s.aluEffect notUnit k0 k1 a b)

end Sys2Proof.Machine
end

