-- ==== Sys2Proof/Machine/Dispatch.lean ====
section
/-! DEFINITION. The dispatch: one arm per instruction of the opcode table (spec/30_encoding.md R101). -/

namespace Sys2Proof.Machine

def exec (i : Instr) (s : State) : Host.Outcome State Fault Refusal :=
  match i with
  | .add k0 k1 a b => Sys2Proof.Machine.execAdd k0 k1 a b s
  | .sub k0 k1 a b => Sys2Proof.Machine.execSub k0 k1 a b s
  | .mul k0 k1 a b => Sys2Proof.Machine.execMul k0 k1 a b s
  | .div k0 k1 a b => Sys2Proof.Machine.execDiv k0 k1 a b s
  | .min k0 k1 a b => Sys2Proof.Machine.execMin k0 k1 a b s
  | .max k0 k1 a b => Sys2Proof.Machine.execMax k0 k1 a b s
  | .mod k0 k1 a b => Sys2Proof.Machine.execMod k0 k1 a b s
  | .not k0 k1 a b => Sys2Proof.Machine.execNot k0 k1 a b s
  | .load k0 k1 a b => Sys2Proof.Machine.execLoad k0 k1 a b s
  | .store k0 k1 a b => Sys2Proof.Machine.execStore k0 k1 a b s
  | .copy k0 k1 a b => Sys2Proof.Machine.execCopy k0 k1 a b s
  | .hlt => Sys2Proof.Machine.execHlt s
  | .call k0 k1 a b => Sys2Proof.Machine.execCall k0 k1 a b s
  | .jmp k0 k1 a b => Sys2Proof.Machine.execJmp k0 k1 a b s
  | .jcmp k0 k1 a b => Sys2Proof.Machine.execJcmp k0 k1 a b s
  | .ret k0 k1 a b => Sys2Proof.Machine.execRet k0 k1 a b s

end Sys2Proof.Machine
end

