-- ==== Sys2Proof/Machine/Load.lean ====
section
/-! DEFINITION. What a load of a program image does to the core (spec/20_memory.md section 8, spec/00_scope.md R23). It is the
only thing that writes memory (R76). The host reaches it through `Session.move` of Session.lean, which admits it before the
first step only (spec/60_exceptions.md R244). -/

namespace Sys2Proof.Machine

/-- The interface `load(addr, value)`: one memory cell, written with enable 3 (spec/00_scope.md R23, R74). -/
def State.loadCell (s : State) (a : Address) (v : Quad) : State := { s with mem := (Memory.run s.mem a 3 v).2 }

/-- The six quads of a word at consecutive ascending addresses, w[0] at the lowest (R68), an address after 63 being 0. -/
def State.loadWord (s : State) (a : Address) (w : InstrWord) : State :=
  (((((s.loadCell a w.cls).loadCell (a.advance 1) w.subop).loadCell (a.advance 2) w.rnf0).loadCell
    (a.advance 3) w.rnf1).loadCell (a.advance 4) w.a).loadCell (a.advance 5) w.b

/-- Words from instruction index `i` on, word `i` at linear address `i*6` (R74). -/
def State.loadFrom (s : State) (i : Nat) (code : List InstrWord) : State :=
  match code with
  | [] => s
  | w :: rest => (s.loadWord (Address.ofLinear (i * 6)) w).loadFrom (i + 1) rest

/-- The effect of loading an image on the core (when a host may load, `Session.move` decides): refused as a whole if it has more
than 64 quads, refused if an integer is no quad, else copied into memory (R74, R75). Where an image breaks both, the length is
named (DESIGN CHOICE, log 12). -/
def State.load (s : State) (code : List RawWord) : Host.Outcome State Fault Refusal :=
  if imageFits code then
    if code.all RawWord.wellFormed then .next (s.loadFrom 0 (code.map RawWord.quads))
    else .refused .outOfDomain
  else .refused .imageTooLong

end Sys2Proof.Machine
end

