-- ==== Sys2Proof/Machine/Step.lean ====
section
/-! DEFINITION. One architectural step: FETCH, then EXECUTE (spec/40_execution.md R120). -/

namespace Sys2Proof.Machine

/-- The halt test comes before the instruction; a halted machine has no step, else the fetched word is decoded and executed
(R120 to R122). -/
def step (s : State) : Host.Outcome State Fault Refusal :=
  if s.halted then .fault .halted else exec (decode s.fetch.1) s.fetch.2

/-- `s` with an instruction, numbered by spec/opcode_table.json, stored where the next step fetches it: its six quads from
the pc on. It places a start state for a step and stands for the host's load (R74; log 13, log 14);
it is no move of a host, which has those of `HostMove` only (spec/60_exceptions.md R244). -/
def State.withFetchWord (s : State) (nbits w : Nat) : State := s.loadWord s.pc (tableWord nbits w)

end Sys2Proof.Machine
end

