-- ==== Sys2Proof/Machine/Assembler.lean ====
section
/-! DEFINITION. The assembler's twelve operand layouts (spec/30_encoding.md R102) with its checks of operand values (R109).
The assembler is software outside the hardware (spec/00_scope.md R7) and the machine does not depend on this file; the text
grammar R107 is left out. -/

namespace Sys2Proof.Machine

/-- A line the assembler admits, after reading its text: register indices and an immediate as written, unchecked (R102,
R108). CALL, JMP, JCMP and RET have no form (R112). -/
inductive AsmLine where
  | hlt
  | load (a imm : Nat)
  | store (a b : Nat)
  | copy (dst src : Nat)
  | add (dst src : Nat)
  | sub (dst src : Nat)
  | mul (dst src : Nat)
  | div (dst src : Nat)
  | min (dst src : Nat)
  | max (dst src : Nat)
  | mod (dst src : Nat)
  | not (a : Nat)
  deriving DecidableEq, Repr

/-- Why a line is refused (R109). -/
inductive AsmError where
  /-- a register index outside 0..3 -/
  | invalidOperand
  /-- an immediate outside 0..3 -/
  | outOfDomain
  deriving DecidableEq, Repr

/-- The word of two register operands, both checked. -/
def asmRegisters (cls subop : Quad) (a b : Nat) : Except AsmError InstrWord :=
  if a < 4 ∧ b < 4 then .ok (operandWord cls subop .register .register (quadOfNat a) (quadOfNat b))
  else .error .invalidOperand

/-- The six quads of a line (R102, R110). COPY puts its source in A and its destination in B. Where LOAD's register index and
its immediate are both out of range, the answer is `invalidOperand`: R109 gives the two errors no order (DESIGN CHOICE, log 17). -/
def assemble (l : AsmLine) : Except AsmError InstrWord :=
  match l with
  | .hlt => .ok (encode .hlt)
  | .load a imm =>
    if a < 4 then
      if imm < 4 then .ok (operandWord 2 0 .register .immediate (quadOfNat a) (quadOfNat imm))
      else .error .outOfDomain
    else .error .invalidOperand
  | .store a b => asmRegisters 2 1 a b
  | .copy dst src => asmRegisters 2 2 src dst
  | .add dst src => asmRegisters 0 0 dst src
  | .sub dst src => asmRegisters 0 1 dst src
  | .mul dst src => asmRegisters 0 2 dst src
  | .div dst src => asmRegisters 0 3 dst src
  | .min dst src => asmRegisters 1 0 dst src
  | .max dst src => asmRegisters 1 1 dst src
  | .mod dst src => asmRegisters 1 2 dst src
  | .not a => asmRegisters 1 3 a 0

end Sys2Proof.Machine
end

