-- ==== Sys2Proof/Machine/Blocks.lean ====
section
/-! DEFINITION. The storage blocks as the spec builds them out of Storage Cells, decoders and `MAX`-reductions: the cell
(spec/10_state.md R31), the register file (R33) and the three-level memory (spec/20_memory.md R64, R65). The machine uses the
operations of Ops.lean; these are the same blocks in the source's own style (spec/00_scope.md R24, R25). -/

namespace Sys2Proof.Machine

/-- A Storage Cell's `run(value, enable)` as (output, new state): a positive enable stores the value (R31). -/
def cellRun (state value enable : Quad) : Quad × Quad :=
  if 0 < enable.val then (value, value) else (state, state)

/-- Four children given one by one. -/
def Four.ofFn {α : Type} (x : Quad → α) : Four α := { c0 := x 0, c1 := x 1, c2 := x 2, c3 := x 3 }

/-- The register file built from 16 cells: every cell is run with its enable masked by `decode16`, decoded against the
constant 3, and the masked cell values are `MAX`-reduced (R33). -/
def regFileBlock (f : RegFile) (row col enable v : Quad) : Quad × RegFile :=
  let f' : RegFile := Four.ofFn fun j => Four.ofFn fun k =>
    (cellRun (f.read j k) v (qmin (decode16 row col 3 j k) enable)).2
  (reduce4 fun j => reduce4 fun k => qmin (decode16 row col 3 j k) (f'.read j k), f')

/-- One memory level over four children: every child is run with its own enable from `decode4(digit, enable)`, and the
outputs are masked with `EQ(digit, child_index)` and `MAX`-reduced (spec/20_memory.md R65). -/
def levelRun {α : Type} (child : α → Quad → Quad × α) (level : Four α) (digit enable : Quad) : Quad × Four α :=
  let out (i : Quad) : Quad × α := child (level.get i) (decode4 digit enable i)
  (reduce4 fun i => qmin (qeq digit i) (out i).1, Four.ofFn fun i => (out i).2)

/-- The base level L1: four Storage Cells (spec/20_memory.md R64). -/
abbrev MemL1 := Four Quad

/-- L2: four L1 (R64). -/
abbrev MemL2 := Four MemL1

/-- L3, the whole memory: four L2 (R64). -/
abbrev MemL3 := Four MemL2

/-- L1 decodes `low` (R64). -/
def l1Run (v low : Quad) (l : MemL1) (enable : Quad) : Quad × MemL1 :=
  levelRun (fun cell e => cellRun cell v e) l low enable

/-- L2 decodes `mid` (R64). -/
def l2Run (v low mid : Quad) (l : MemL2) (enable : Quad) : Quad × MemL2 :=
  levelRun (fun child e => l1Run v low child e) l mid enable

/-- The memory hierarchy's `run(low, mid, high, enable, value)`; L3 decodes `high` (R64, R65). -/
def memTreeRun (l : MemL3) (a : Address) (enable v : Quad) : Quad × MemL3 :=
  levelRun (fun child e => l2Run v a.low a.mid child e) l a.high enable

/-- The cell of the tree that a digit triple names. -/
def memTreeCell (l : MemL3) (a : Address) : Quad := ((l.get a.high).get a.mid).get a.low

end Sys2Proof.Machine
end

