-- ==== Sys2Proof/Machine/Execute.lean ====
section
/-! DEFINITION. EXECUTE as the spec's five steps write it, on the fetched word: class decode, operand multiplex, `M_ALU`,
gated writes (spec/40_execution.md R127 to R135). `exec` gives the same instructions one by one. -/

namespace Sys2Proof.Machine

/-- The four arithmetic units, by subop (R131). -/
def arithUnit (v1 v2 subop : Quad) : Quad × Quad :=
  match subop with
  | 0 => halfAdder v1 v2
  | 1 => halfSubtractor v1 v2
  | 2 => halfMultiplier v1 v2
  | 3 => halfDivider v1 v2

/-- The four logic operations, by subop (R130, R131). -/
def logicUnit (v1 v2 subop : Quad) : Quad × Quad :=
  match subop with
  | 0 => minUnit v1 v2
  | 1 => maxUnit v1 v2
  | 2 => modUnit v1 v2
  | 3 => notUnit v1 v2

/-- One component of the eight results, masked by the one-hot lines of class and subop and `MAX`-reduced (R130). -/
def aluMux (instr0 instr1 : Quad) (arith logic : Quad → Quad) : Quad :=
  qmax (reduce4 fun k => qmin (decode4 instr1 (decode4 instr0 3 0) k) (arith k))
    (reduce4 fun k => qmin (decode4 instr1 (decode4 instr0 3 1) k) (logic k))

/-- `M_ALU(V1, V2, instr0, instr1)` as (flag, result): all eight units run and one is selected; none for classes 2 and 3,
where both components are 0 (R130, R131). -/
def mALU (v1 v2 instr0 instr1 : Quad) : Quad × Quad :=
  (aluMux instr0 instr1 (fun k => (arithUnit v1 v2 k).1) (fun k => (logicUnit v1 v2 k).1),
   aluMux instr0 instr1 (fun k => (arithUnit v1 v2 k).2) (fun k => (logicUnit v1 v2 k).2))

/-- Operand resolution as a multiplex over the kinds: a one-hot decode of RNF, `MAX`-reduced; the line of RNF = 3 carries
the parameter `rnf3Value` (spec/30_encoding.md R93). -/
def State.resolveMux (s : State) (rnf x : Quad) : Quad :=
  qmax (qmin (decode4 rnf 3 0) (s.readReg x)) (qmax (qmin (decode4 rnf 3 1) (s.readFlag x 0))
    (qmax (qmin (decode4 rnf 3 2) x) (qmin (decode4 rnf 3 3) s.cfg.rnf3Value)))

/-- A register write gated by an enable (spec/10_state.md R33). -/
def State.gateReg (s : State) (x enable v : Quad) : State := { s with reg := (s.reg.run x 0 enable v).2 }

/-- A flag write gated by an enable (spec/10_state.md R33, R38). -/
def State.gateFlag (s : State) (row col enable v : Quad) : State := { s with flag := (s.flag.run row col enable v).2 }

/-- EXECUTE(w) (R127): steps 1 to 4 in the source's order; step 5, the function class, has no effect (R135). -/
def executeWord (w : InstrWord) (s : State) : State :=
  let c := decode4 w.cls 3
  let v1 := s.resolveMux w.rnf0 w.a
  let v2 := s.resolveMux w.rnf1 w.b
  let r := mALU v1 v2 w.cls w.subop
  let s3 := (s.gateFlag w.a 0 3 r.1).gateReg w.a (qmax (c 0) (c 1)) r.2
  let d := decode4 w.subop (c 2)
  ((s3.gateReg w.a (qmax (d 0) (d 1)) v2).gateReg w.b (d 2) v1).gateFlag 3 3 (d 3) 3

end Sys2Proof.Machine
end

