-- ==== Sys2Proof/Machine/Fsm.lean ====
section
/-! DEFINITION. The fetch/execute state machine with its two alternating states and the instruction latch (spec/10_state.md
R46, R47; spec/40_execution.md R120). Two ticks from FETCH are one architectural step (log 3). -/

namespace Sys2Proof.Machine

/-- The FSM's two states; EXECUTE holds the fetched-instruction latch w[0..5] (R46, R47). -/
inductive Phase where
  | fetch
  | execute (latch : InstrWord)
  deriving DecidableEq, Repr

/-- The machine within a step. -/
structure FsmState where
  core : State
  phase : Phase
  deriving DecidableEq, Repr

/-- The FSM after reset is in FETCH (R50). -/
def FsmState.reset : FsmState := { core := State.reset, phase := .fetch }

/-- One state of the FSM: FETCH, gated by the halt test, fills the latch; EXECUTE consumes it (R120, R121). -/
def fsmTick (m : FsmState) : Host.Outcome FsmState Fault Refusal :=
  match m.phase with
  | .fetch =>
    if m.core.halted then .fault .halted
    else .next { core := m.core.fetch.2, phase := .execute m.core.fetch.1 }
  | .execute w => .next { core := executeWord w m.core, phase := .fetch }

/-- Two ticks: one whole instruction from FETCH (R120). -/
def fsmCycle (m : FsmState) : Host.Outcome FsmState Fault Refusal :=
  match fsmTick m with
  | .next m' => fsmTick m'
  | .fault r => .fault r
  | .refused r => .refused r

end Sys2Proof.Machine
end

