-- ==== Sys2Proof/Machine/Session.lean ====
section
/-! DEFINITION. The host at the block boundary: the moves it has, what each gives back, and when it may make it (spec/
60_exceptions.md R244, spec/70_reset_and_hazards.md R263, spec/00_scope.md R23). These moves are all the access a host has:
the functions of Load.lean say what a load does to the core, and only a move before the first step invokes them. -/

namespace Sys2Proof.Machine

/-- One machine and one run of it. `started` is the host's knowledge that a step has been made; it is no state of the block
(log 18). -/
structure Session where
  core : State
  started : Bool
  deriving DecidableEq, Repr

/-- The move `construct`: one fresh machine per run, not yet stepped (R244, spec/70_reset_and_hazards.md R260, R262). Its
parameters are fixed here (spec/00_scope.md R9). -/
def Session.construct (cfg : Config) : Session := { core := { State.reset with cfg := cfg }, started := false }

/-- What a host can do with a constructed machine (R244); it has no move that writes a register, a flag or the pc. -/
inductive HostMove where
  /-- load a program image (spec/20_memory.md R74, R75) -/
  | load (code : List RawWord)
  /-- load one memory cell (spec/00_scope.md R23) -/
  | loadCell (a : Address) (v : Quad)
  /-- one whole instruction (spec/40_execution.md R120) -/
  | step
  /-- read, and change nothing (spec/10_state.md R36) -/
  | observe
  deriving DecidableEq, Repr

/-- What a host sees: both files row-major, and for a model also the pc, the 64 memory cells and the halted condition (R244,
spec/10_state.md R36, spec/00_scope.md R23). -/
structure Observation where
  regs : List (List Quad)
  flags : List (List Quad)
  pc : Address
  mem : List Quad
  halted : Bool
  deriving DecidableEq, Repr

/-- What a host gets back (R244). -/
inductive HostReply where
  /-- the image or the cell is in memory -/
  | loaded
  /-- `RAN`: one instruction was executed -/
  | ran
  /-- `HALTED`: flag (3,3) is not 0 and nothing happened -/
  | halted
  /-- the answer of `observe` -/
  | seen (o : Observation)
  /-- the move was refused and nothing happened -/
  | refused (r : Refusal)
  deriving DecidableEq, Repr

/-- The observation of a state. -/
def State.observation (s : State) : Observation :=
  { regs := s.dumpRegs, flags := s.dumpFlags, pc := s.pc,
    mem := (List.range 64).map (Memory.readAt s.mem), halted := s.halted }

/-- A load before the first step; during a run it is refused and nothing is written (R244 "before the first step only",
spec/20_memory.md R76). -/
def Session.loadWith (h : Session) (o : Host.Outcome State Fault Refusal) : Session × HostReply :=
  if h.started then (h, .refused .loadDuringRun)
  else match o with
    | .next t => ({ h with core := t }, .loaded)
    | .fault .halted => (h, .halted)
    | .refused r => (h, .refused r)

/-- The move `step`: RAN and a new state, or HALTED and the session as it was (R244, spec/40_execution.md R120, R122). -/
def Session.stepOnce (h : Session) : Session × HostReply :=
  match step h.core with
  | .next t => ({ core := t, started := true }, .ran)
  | .fault .halted => (h, .halted)
  | .refused r => (h, .refused r)

/-- One move of the host (R244). -/
def Session.move (h : Session) (m : HostMove) : Session × HostReply :=
  match m with
  | .load code => h.loadWith (h.core.load code)
  | .loadCell a v => h.loadWith (.next (h.core.loadCell a v))
  | .step => h.stepOnce
  | .observe => (h, .seen h.core.observation)

/-- A sequence of moves; a host may stop at any time (R244). -/
def Session.moves (h : Session) (ms : List HostMove) : Session :=
  match ms with
  | [] => h
  | m :: rest => (h.move m).1.moves rest

end Sys2Proof.Machine
end

