-- ==== Sys2Proof/Safety.lean ====
section
/-! DEFINITION. The terms statements use: what a state keeps, what an instruction leaves unchanged, what a safe run is. -/

namespace Sys2Proof.Machine

/-- The invariant of the machine: memory in canonical form; the register cells and flag cells that no instruction reaches
hold 0 (spec/10_state.md R35, R41); the halt flag holds 0 or 3 (R42). -/
structure State.Inv (s : State) : Prop where
  memoryCanonical : Memory.wf s.mem = true
  unreachedRegistersZero : ∀ row col : Quad, col ≠ 0 → s.reg.read row col = 0
  unreachedFlagsZero : ∀ row col : Quad, col ≠ 0 → (row, col) ≠ (3, 3) → s.flag.read row col = 0
  haltFlagZeroOrThree : s.flag.read 3 3 = 0 ∨ s.flag.read 3 3 = 3

/-- From `s` to `t`, at most the listed register cells and flag cells change: every other cell, every memory cell, the
program counter and the parameters are as before (spec/40_execution.md R136). -/
structure OnlyWrites (s t : State) (regCells flagCells : List (Quad × Quad)) : Prop where
  registers : ∀ row col : Quad, (row, col) ∉ regCells → t.reg.read row col = s.reg.read row col
  flags : ∀ row col : Quad, (row, col) ∉ flagCells → t.flag.read row col = s.flag.read row col
  memory : ∀ n : Nat, Memory.readAt t.mem n = Memory.readAt s.mem n
  counter : t.pc = s.pc
  parameters : t.cfg = s.cfg

/-- Two machines that agree on everything an instruction can read: memory, pc, parameters, column 0 of both files and the
halt flag. They may differ in the cells of R35 and R41. -/
structure AgreeOnReached (s t : State) : Prop where
  memory : s.mem = t.mem
  counter : s.pc = t.pc
  parameters : s.cfg = t.cfg
  registers : ∀ row : Quad, s.reg.read row 0 = t.reg.read row 0
  flags : ∀ row : Quad, s.flag.read row 0 = t.flag.read row 0
  haltFlag : s.flag.read 3 3 = t.flag.read 3 3

/-- The quad `n` places after the pc, addresses wrapping from 63 to 0 (spec/20_memory.md R73). -/
def State.quadAhead (s : State) (n : Nat) : Quad := Memory.readAt s.mem ((s.pc.linear + n) % 64)

/-- `k` steps of the machine from `s`, ending at the first step that has no next state (spec/40_execution.md R120). -/
def runSteps (k : Nat) (s : State) : Host.Outcome State Fault Refusal := Sys2Proof.core.run k s

/-- The outcome of a safe run: a state with the invariant, or the end of the run at a halted machine. Nothing is refused and
no other fault exists (spec/60_exceptions.md R230, R231). -/
def SafeOutcome (o : Host.Outcome State Fault Refusal) : Prop :=
  match o with
  | .next s => s.Inv
  | .fault .halted => True
  | .refused _ => False

end Sys2Proof.Machine
end

