-- ==== Sys2Proof/Certificates/Slice0/Obligations.lean ====
section
/-! DEFINITION. The statements for the provers. Each docstring names the rule of spec/ it formalises; where a clause rests on a
decision the spec marks as its own (D<n> of spec/92_eei_decisions.md) the docstring says so. In a statement about one
instruction, `s.halted = false` is the one condition on the state (spec/40_execution.md R122); the operands and both
parameters of `s.cfg` are arbitrary. -/

open Sys2Proof Sys2Proof.Machine

/-! Primitives and blocks -/

/-- R15 to R20. -/
def Obligations.PrimitivesAreIntegerFunctions : Prop :=
  ∀ a b : Quad,
    (qmin a b).val = min a.val b.val ∧ (qmax a b).val = max a.val b.val ∧ (qnot a).val = 3 - a.val ∧
    (qcom a b).val = (if b.val < a.val then a.val - b.val else 0) ∧ (qmod a b).val = (a.val + b.val) % 4 ∧
    qeq a b = (if a = b then 3 else 0) ∧ ∀ v : Quad, qmin (qeq a b) v = if a = b then v else 0

/-- R31: the answer is the value after any write; enable 0 never writes; a positive enable stores, and a later read gives the
stored value. -/
def Obligations.StorageCellStoresOnPositiveEnable : Prop :=
  ∀ state v e w : Quad,
    cellRun state v 0 = (state, state) ∧ (0 < e.val → cellRun state v e = (v, v)) ∧
    (0 < e.val → (cellRun (cellRun state v e).2 w 0).1 = v)

/-- R60, R61, R62. -/
def Obligations.DecodersSelectOneLine : Prop :=
  (∀ addr enable i : Quad, decode4 addr enable i = qmin (qeq i addr) enable) ∧
  (∀ addr enable i : Quad, decode4 addr enable i = if i = addr then enable else 0) ∧
  (∀ addr0 addr1 enable j k : Quad,
    decode16 addr0 addr1 enable j k = decode4 addr1 (decode4 addr0 enable j) k ∧
    decode16 addr0 addr1 enable j k = if j = addr0 ∧ k = addr1 then enable else 0)

/-- R92: one class line and one subop line of that class are 3, and the pair selects one row of the opcode table. -/
def Obligations.ClassAndSubopSelectOneOperation : Prop :=
  ∀ instr0 instr1 : Quad,
    (∀ c : Quad, decode4 instr0 3 c = if c = instr0 then 3 else 0) ∧
    (∀ c k : Quad, decode4 instr1 (decode4 instr0 3 c) k = if c = instr0 ∧ k = instr1 then 3 else 0) ∧
    ((opcodeTable.filter fun r => r.cls == instr0 && r.subop == instr1).length = 1)

/-- The register file built of 16 cells, decoders and reductions answers and stores what `RegFile.run` does. R33, whose
constant 3 the spec derives. -/
def Obligations.RegisterFileBlockRefinesRun : Prop :=
  ∀ (f : RegFile) (row col enable v : Quad), regFileBlock f row col enable v = f.run row col enable v

/-- R37, for one file and for the two files of the machine. -/
def Obligations.RegisterFileRoundTrip : Prop :=
  (∀ (f : RegFile) (row col row' col' e v w : Quad),
    ((row', col') ≠ (row, col) → (f.run row col e v).2.read row' col' = f.read row' col') ∧
    (e ≠ 0 → ((f.run row col e v).2.run row col 0 w).1 = v)) ∧
  (∀ row col v : Quad, (State.reset.reg.run row col 0 v).1 = 0 ∧ (State.reset.flag.run row col 0 v).1 = 0) ∧
  (∀ (s : State) (x row col v : Quad),
    (s.writeReg x v).flag = s.flag ∧ (s.writeFlag row col v).reg = s.reg)

/-- R66: one leaf cell per access, and the round trip. Memory in canonical form is the model's own representation (log 2). -/
def Obligations.MemoryRoundTrip : Prop :=
  (∀ (a : Address) (enable i j k : Quad),
    decode4 a.low (decode4 a.mid (decode4 a.high enable k) j) i =
      if ({ low := i, mid := j, high := k } : Address) = a then enable else 0) ∧
  (∀ a : Address, Memory.read State.reset.mem a = 0) ∧
  ∀ (m : Memory) (a b : Address) (e v w : Quad), Memory.wf m = true →
    (e ≠ 0 → (Memory.run (Memory.run m a e v).2 a 0 w).1 = v) ∧
    (b ≠ a → Memory.read (Memory.run m a e v).2 b = Memory.read m b) ∧
    (Memory.run m a 0 v).2 = m

/-- The three levels of decoders, masked enables and reductions compute one cell access (R65), and stay in step with the list
that State holds, access by access. That list and its canonical form are the model's own representation (DESIGN CHOICE, log 2);
which level decodes which digit is the spec's decision D18 (log 16). -/
def Obligations.MemoryHierarchyRefinesList : Prop :=
  (∀ (l : MemL3) (a b : Address) (enable v : Quad),
    (memTreeRun l a enable v).1 = (if enable = 0 then memTreeCell l a else v) ∧
    memTreeCell (memTreeRun l a enable v).2 b = (if enable ≠ 0 ∧ b = a then v else memTreeCell l b)) ∧
  ∀ (l : MemL3) (m : Memory) (a : Address) (enable v : Quad), Memory.wf m = true →
    (∀ b : Address, memTreeCell l b = Memory.read m b) →
    (memTreeRun l a enable v).1 = (Memory.run m a enable v).1 ∧
    (∀ b : Address, memTreeCell (memTreeRun l a enable v).2 b = Memory.read (Memory.run m a enable v).2 b) ∧
    Memory.wf (Memory.run m a enable v).2 = true

/-- Memories in canonical form that read alike are the same list: the model's own representation (log 2). -/
def Obligations.CanonicalMemoryIsUnique : Prop :=
  ∀ m m' : Memory, Memory.wf m = true → Memory.wf m' = true →
    (∀ n : Nat, Memory.readAt m n = Memory.readAt m' n) → m = m'

/-- R124: each advance is `add(1,0,0)`, the linear value plus 1 modulo 64. -/
def Obligations.CounterAdvanceWrapsAt64 : Prop :=
  ∀ a : Address, a.succ = a.add 1 0 0 ∧ a.succ.linear = (a.linear + 1) % 64

/-- Digits and linear addresses name the same 64 cells. R63, the spec's decision D18. -/
def Obligations.AddressDigitsAreLinearAddresses : Prop :=
  (∀ a : Address, a.linear < 64 ∧ Address.ofLinear a.linear = a) ∧
  ∀ n : Nat, n < 64 → (Address.ofLinear n).linear = n

/-! Units of the ALU -/

/-- R150, R151. -/
def Obligations.HalfAdderAndSubtractorArithmetic : Prop :=
  ∀ a b : Quad,
    (halfAdder a b).1 = qmin 1 (qmax (qcom a (qnot b)) (qcom b (qnot a))) ∧ (halfAdder a b).2 = qmod a b ∧
    (halfAdder a b).1.val = (if 4 ≤ a.val + b.val then 1 else 0) ∧ (halfAdder a b).2.val = (a.val + b.val) % 4 ∧
    (halfSubtractor a b).1 = qmin 1 (qcom b a) ∧ (halfSubtractor a b).2 = qmod (qmod a (qnot b)) 1 ∧
    (halfSubtractor a b).1.val = (if a.val < b.val then 1 else 0) ∧
    (halfSubtractor a b).2.val = (a.val + 4 - b.val) % 4

/-- The multiplier and the divider on quads. They rest on the spec's decisions D9 (indicator 1), D6 and D7 (comparator and
remainder of the divider) and D8 (which output is the flag). -/
def Obligations.HalfMultiplierAndDividerArithmetic : Prop :=
  ∀ a b : Quad,
    (halfMultiplier a b).1.val = (if 2 ≤ a.val ∧ 2 ≤ b.val then 1 else 0) ∧
    (halfMultiplier a b).2.val = a.val * b.val % 4 ∧
    ((halfDivider a b).2.val * b.val % 4 ≤ a.val ∧
      (∀ k : Quad, (halfDivider a b).2.val < k.val → a.val < k.val * b.val % 4)) ∧
    (halfDivider a b).1.val = a.val - (halfDivider a b).2.val * b.val % 4

/-- `M_ALU` selects one of the eight pairs, and (0, 0) for classes 2 and 3. The flag 0 of the logic operations and of classes 2
and 3 is the spec's decision D10, the divider's pair its decision D8. -/
def Obligations.AluMultiplexerSelectsUnit : Prop :=
  ∀ v1 v2 : Quad,
    mALU v1 v2 0 0 = halfAdder v1 v2 ∧ mALU v1 v2 0 1 = halfSubtractor v1 v2 ∧
    mALU v1 v2 0 2 = halfMultiplier v1 v2 ∧ mALU v1 v2 0 3 = halfDivider v1 v2 ∧
    mALU v1 v2 1 0 = (0, qmin v1 v2) ∧ mALU v1 v2 1 1 = (0, qmax v1 v2) ∧
    mALU v1 v2 1 2 = (0, qmod v1 v2) ∧ mALU v1 v2 1 3 = (0, qnot (qmax v1 v2)) ∧
    ∀ k : Quad, mALU v1 v2 2 k = (0, 0) ∧ mALU v1 v2 3 k = (0, 0)

/-! Encoding -/

/-- Every instruction survives encoding and decoding, and every word survives decoding and encoding but for the operand
positions of HLT, which read as the padding 0. -/
def Obligations.DecodeAndEncodeAgree : Prop :=
  (∀ i : Instr, decode (encode i) = i) ∧
  (∀ w : InstrWord, encode (decode w) =
    if w.cls = 2 ∧ w.subop = 3 then { cls := 2, subop := 3, rnf0 := 0, rnf1 := 0, a := 0, b := 0 } else w) ∧
  ∀ w : InstrWord, (opcodeTable.filter fun r => r.matchesWord w) =
    [{ cls := w.cls, subop := w.subop, mnemonic := (decode w).mnemonic }]

/-- R102: the twelve layouts of the assembler, for operands in range. -/
def Obligations.AssemblerLayouts : Prop :=
  assemble .hlt = .ok ⟨2, 3, 0, 0, 0, 0⟩ ∧
  ∀ x y : Quad,
    assemble (.load x.val y.val) = .ok ⟨2, 0, 0, 2, x, y⟩ ∧ assemble (.store x.val y.val) = .ok ⟨2, 1, 0, 0, x, y⟩ ∧
    assemble (.copy x.val y.val) = .ok ⟨2, 2, 0, 0, y, x⟩ ∧ assemble (.add x.val y.val) = .ok ⟨0, 0, 0, 0, x, y⟩ ∧
    assemble (.sub x.val y.val) = .ok ⟨0, 1, 0, 0, x, y⟩ ∧ assemble (.mul x.val y.val) = .ok ⟨0, 2, 0, 0, x, y⟩ ∧
    assemble (.div x.val y.val) = .ok ⟨0, 3, 0, 0, x, y⟩ ∧ assemble (.min x.val y.val) = .ok ⟨1, 0, 0, 0, x, y⟩ ∧
    assemble (.max x.val y.val) = .ok ⟨1, 1, 0, 0, x, y⟩ ∧ assemble (.mod x.val y.val) = .ok ⟨1, 2, 0, 0, x, y⟩ ∧
    assemble (.not x.val) = .ok ⟨1, 3, 0, 0, x, 0⟩

/-- The source's end-to-end example: four lines, their four words, and the instruction each of those words decodes to (R113),
with one word that has RNF = 3 and one word of the function class. -/
def Obligations.WorkedWordsDecode : Prop :=
  [AsmLine.load 0 0, .load 1 2, .add 0 1, .hlt].map assemble =
    [.ok ⟨2, 0, 0, 2, 0, 0⟩, .ok ⟨2, 0, 0, 2, 1, 2⟩, .ok ⟨0, 0, 0, 0, 0, 1⟩, .ok ⟨2, 3, 0, 0, 0, 0⟩] ∧
  decode ⟨2, 0, 0, 2, 0, 0⟩ = .load .register .immediate 0 0 ∧
  decode ⟨2, 0, 0, 2, 1, 2⟩ = .load .register .immediate 1 2 ∧
  decode ⟨0, 0, 0, 0, 0, 1⟩ = .add .register .register 0 1 ∧
  decode ⟨1, 1, 3, 2, 2, 1⟩ = .max .reserved .immediate 2 1 ∧
  decode ⟨3, 1, 0, 0, 1, 2⟩ = .jmp .register .register 1 2 ∧
  decode ⟨2, 3, 0, 0, 0, 0⟩ = .hlt

/-- What each RNF code reads (R94). That a register or flag operand x is the cell (x,0) is the spec's decisions D3 and D4
(DEDUCED, log 6); that RNF = 3 gives the parameter, whatever it is, is its decision D5 (log 4). -/
def Obligations.OperandResolutionByKind : Prop :=
  ∀ (s : State) (x : Quad),
    s.resolve (OperandKind.ofRnf 0) x = s.reg.read x 0 ∧ s.resolve (OperandKind.ofRnf 1) x = s.flag.read x 0 ∧
    s.resolve (OperandKind.ofRnf 2) x = x ∧ s.resolve (OperandKind.ofRnf 3) x = s.cfg.rnf3Value ∧
    ∀ (w : InstrWord) (i : Instr), w.cls ≠ 2 ∨ w.subop ≠ 3 → decode w = i →
      (encode i).rnf0 = w.rnf0 ∧ (encode i).a = w.a ∧ (encode i).rnf1 = w.rnf1 ∧ (encode i).b = w.b

/-! Fetch, step and run -/

/-- The length table: 2 for HLT, 6 for every other opcode of classes 0 to 2, the parameter for class 3. The table is the spec's
decision D12 (log 5, log 10). -/
def Obligations.FetchLengthTable : Prop :=
  ∀ (cfg : Config) (c k : Quad),
    (romInstr cfg c k).2 = 0 ∧
    fetchLength cfg c k =
      if c = 2 ∧ k = 3 then 2
      else if c = 3 then (match cfg.fnClassLength with | .two => 2 | .six => 6)
      else 6

/-- FETCH reads the quads from the pc on, wrapping at 64, pads a short instruction, moves the pc by the length, and changes
nothing else. The order within FETCH is the spec's decision D13, the lengths its decision D12. -/
def Obligations.FetchReadsSuccessiveQuads : Prop :=
  ∀ s : State,
    s.fetch.1.cls = s.quadAhead 0 ∧ s.fetch.1.subop = s.quadAhead 1 ∧
    (fetchLength s.cfg (s.quadAhead 0) (s.quadAhead 1) = 6 →
      s.fetch.1.rnf0 = s.quadAhead 2 ∧ s.fetch.1.rnf1 = s.quadAhead 3 ∧
      s.fetch.1.a = s.quadAhead 4 ∧ s.fetch.1.b = s.quadAhead 5) ∧
    (fetchLength s.cfg (s.quadAhead 0) (s.quadAhead 1) = 2 →
      s.fetch.1.rnf0 = 0 ∧ s.fetch.1.rnf1 = 0 ∧ s.fetch.1.a = 0 ∧ s.fetch.1.b = 0) ∧
    s.fetch.2.pc.linear =
      (s.pc.linear + fetchLength s.cfg (s.quadAhead 0) (s.quadAhead 1)) % 64 ∧
    s.fetch.2.mem = s.mem ∧ s.fetch.2.reg = s.reg ∧ s.fetch.2.flag = s.flag ∧ s.fetch.2.cfg = s.cfg

/-- R100: a 2-quad instruction is padded with 0, and its word does not depend on what memory holds after the second quad. -/
def Obligations.PaddingIsNotRead : Prop :=
  ∀ s t : State, s.cfg = t.cfg → s.quadAhead 0 = t.quadAhead 0 → s.quadAhead 1 = t.quadAhead 1 →
    fetchLength s.cfg (s.quadAhead 0) (s.quadAhead 1) = 2 →
    s.fetch.1 = { cls := s.quadAhead 0, subop := s.quadAhead 1, rnf0 := 0, rnf1 := 0, a := 0, b := 0 } ∧
    t.fetch.1 = s.fetch.1

/-- A step of a machine not halted runs the instruction whose word stands at the pc, on the state whose pc is past that word:
six quads, or two for HLT and, where the parameter says so, for class 3. The step is the spec's decision D1. -/
def Obligations.StepRunsDecodedInstruction : Prop :=
  ∀ s : State, s.halted = false →
    (∀ i : Instr, fetchLength s.cfg (encode i).cls (encode i).subop = 6 →
      s.quadAhead 0 = (encode i).cls → s.quadAhead 1 = (encode i).subop → s.quadAhead 2 = (encode i).rnf0 →
      s.quadAhead 3 = (encode i).rnf1 → s.quadAhead 4 = (encode i).a → s.quadAhead 5 = (encode i).b →
      step s = exec i { s with pc := s.pc.advance 6 }) ∧
    (∀ i : Instr, fetchLength s.cfg (encode i).cls (encode i).subop = 2 →
      s.quadAhead 0 = (encode i).cls → s.quadAhead 1 = (encode i).subop → (encode i).rnf0 = 0 →
      (encode i).rnf1 = 0 → (encode i).a = 0 → (encode i).b = 0 →
      step s = exec i { s with pc := s.pc.advance 2 }) ∧
    step s = exec (decode s.fetch.1) s.fetch.2

/-- R122: no step, no execution of any instruction, on a machine whose halt flag is not 0. -/
def Obligations.HaltedMachineHasNoStep : Prop :=
  ∀ s : State, s.flag.read 3 3 ≠ 0 → step s = .fault .halted ∧ ∀ i : Instr, exec i s = .fault .halted

/-- No instruction traps, faults or is refused on a machine not halted: every step and every instruction completes. -/
def Obligations.EveryRunningMachineSteps : Prop :=
  ∀ s : State, s.halted = false →
    (∀ i : Instr, ∃ t, exec i s = .next t) ∧ ∃ t, step s = .next t

/-- R40: only HLT writes the halt flag, with 3; no operand reads it; nonzero means halted. -/
def Obligations.OnlyHltWritesHaltFlag : Prop :=
  (∀ (i : Instr) (s t : State), exec i s = .next t →
    (i = .hlt → t.flag.read 3 3 = 3) ∧ (i ≠ .hlt → t.flag.read 3 3 = s.flag.read 3 3)) ∧
  (∀ (s : State) (k : OperandKind) (x v : Quad), (s.writeFlag 3 3 v).resolve k x = s.resolve k x) ∧
  ∀ s : State, s.halted = true ↔ s.flag.read 3 3 ≠ 0

/-- R45: the pc moves once per quad fetched, and no instruction writes it in any other way. -/
def Obligations.CounterMovesOnlyByFetch : Prop :=
  (∀ (i : Instr) (s t : State), exec i s = .next t → t.pc = s.pc) ∧
  ∀ s t : State, step s = .next t →
    t.pc = s.fetch.2.pc ∧
    t.pc.linear = (s.pc.linear + fetchLength s.cfg (s.quadAhead 0) (s.quadAhead 1)) % 64

/-- No run writes memory: after any number of steps every cell reads as before (R76, the spec's decision D16), and the
parameters stand (log 4, log 5). -/
def Obligations.RunsNeverWriteMemory : Prop :=
  ∀ (k : Nat) (s t : State), runSteps k s = .next t →
    (∀ n : Nat, Memory.readAt t.mem n = Memory.readAt s.mem n) ∧ t.cfg = s.cfg

/-- Every step keeps the invariant: memory canonical (log 2), unreached cells 0 (R35, R41), halt flag 0 or 3 (R42). -/
def Obligations.StepKeepsMachineInvariant : Prop :=
  ∀ s t : State, s.Inv → step s = .next t → t.Inv

/-- The invariant holds right after reset. -/
def Obligations.ResetSatisfiesMachineInvariant : Prop := State.reset.Inv

/-- Reset: every memory, register and flag cell 0, pc 0 (the spec's decision D14), not halted. -/
def Obligations.ResetLeavesEveryCellZero : Prop :=
  (∀ n : Nat, Memory.readAt State.reset.mem n = 0) ∧
  (∀ row col : Quad, State.reset.reg.read row col = 0 ∧ State.reset.flag.read row col = 0) ∧
  State.reset.pc = { low := 0, mid := 0, high := 0 } ∧ State.reset.halted = false

/-- From a state with the invariant every run, of any length, ends in a state with the invariant or at a halted machine. -/
def Obligations.EveryRunIsSafe : Prop :=
  ∀ (k : Nat) (s : State), s.Inv → SafeOutcome (runSteps k s)

/-- What no instruction reaches never matters and never changes: two machines that differ only in the register cells of R35 and
the flag cells of R41 step alike, and a step leaves those cells alone. -/
def Obligations.UnreachedCellsNeverMatter : Prop :=
  (∀ s t : State, AgreeOnReached s t →
    (step s = .fault .halted ∧ step t = .fault .halted) ∨
    ∃ s' t', step s = .next s' ∧ step t = .next t' ∧ AgreeOnReached s' t') ∧
  ∀ s t : State, step s = .next t → ∀ row col : Quad, col ≠ 0 →
    t.reg.read row col = s.reg.read row col ∧
    ((row, col) ≠ (3, 3) → t.flag.read row col = s.flag.read row col)

/-- The instructions one by one and EXECUTE on the word (R127), with its multiplexed ALU and gated writes, are one machine.
`M_ALU`'s flag 0 and the ungated flag write are the spec's decisions D10 and D11. -/
def Obligations.ExecIsExecuteOfWord : Prop :=
  ∀ (i : Instr) (s : State), s.halted = false → exec i s = .next (executeWord (encode i) s)

/-- Two ticks of the fetch/execute state machine, FETCH into the latch and EXECUTE from it, are one step. One step per
instruction is the spec's decision D1 (log 3). -/
def Obligations.FsmCycleIsStep : Prop :=
  ∀ s : State, fsmCycle { core := s, phase := .fetch } =
    match step s with
    | .next t => .next { core := t, phase := .fetch }
    | .fault r => .fault r
    | .refused r => .refused r

/-- R138: a run that executes no HLT goes on for any number of steps. -/
def Obligations.RunWithoutHltGoesOn : Prop :=
  ∀ (k : Nat) (s : State), s.halted = false →
    (∀ (j : Nat) (t : State), j < k → runSteps j s = .next t → decode t.fetch.1 ≠ .hlt) →
    ∃ t, runSteps k s = .next t ∧ t.halted = false

/-- Zero cells at the pc run as ADD R0 R0: R0 doubles modulo 4 and flag (0,0) is the carry (R140, which the spec derives). -/
def Obligations.ZeroCellsRunAsAdd : Prop :=
  ∀ s : State, s.halted = false → (∀ n : Nat, n < 6 → s.quadAhead n = 0) →
    ∃ t, step s = .next t ∧ (t.reg.read 0 0).val = 2 * (s.reg.read 0 0).val % 4 ∧
      (t.flag.read 0 0).val = (if 4 ≤ 2 * (s.reg.read 0 0).val then 1 else 0) ∧
      t.pc.linear = (s.pc.linear + 6) % 64

/-! Host interface -/

/-- Word `i`, quad `j` of an image goes to linear address 6*i + j; cells the image does not cover keep their value, which is 0 on a
fresh machine; nothing else changes (R74). The premise and the clause about canonical form are the model's own representation
(DESIGN CHOICE, log 2); which images are admitted is the spec's decision D17 (log 12). -/
def Obligations.LoadPlacesImage : Prop :=
  (∀ n : Nat, Memory.readAt State.reset.mem n = 0) ∧
  ∀ (code : List RawWord) (s : State), Memory.wf s.mem = true → imageWellFormed code = true →
    ∃ t, s.load code = .next t ∧
      (∀ (i : Nat) (h : i < code.length),
        (Memory.readAt t.mem (i * 6)).val = code[i].cls ∧ (Memory.readAt t.mem (i * 6 + 1)).val = code[i].subop ∧
        (Memory.readAt t.mem (i * 6 + 2)).val = code[i].rnf0 ∧ (Memory.readAt t.mem (i * 6 + 3)).val = code[i].rnf1 ∧
        (Memory.readAt t.mem (i * 6 + 4)).val = code[i].a ∧ (Memory.readAt t.mem (i * 6 + 5)).val = code[i].b) ∧
      (∀ n : Nat, code.length * 6 ≤ n → Memory.readAt t.mem n = Memory.readAt s.mem n) ∧
      Memory.wf t.mem = true ∧ t.reg = s.reg ∧ t.flag = s.flag ∧ t.pc = s.pc ∧ t.cfg = s.cfg

/-- An image of more than 64 quads, or with an integer that is no quad, is refused and never loaded (R75, the spec's decision
D17; which of the two names is answered where both hold is the model's choice, log 12, and nothing is said of it here). -/
def Obligations.BadImageIsRefused : Prop :=
  ∀ (code : List RawWord) (s : State),
    (64 < 6 * code.length → code.all RawWord.wellFormed = true → s.load code = .refused .imageTooLong) ∧
    (6 * code.length ≤ 64 → (∃ w ∈ code, 4 ≤ w.cls ∨ 4 ≤ w.subop ∨ 4 ≤ w.rnf0 ∨ 4 ≤ w.rnf1 ∨ 4 ≤ w.a ∨ 4 ≤ w.b) →
      s.load code = .refused .outOfDomain) ∧
    (64 < 6 * code.length → ∃ r, s.load code = .refused r)

/-- The host loads before the first step only, and writes nothing else ever: in a started run a load is refused and leaves the
session, whatever sequence of moves follows memory reads as before and the run stays started, and no move but `step` changes a
register, a flag or the pc. R244, the spec's decisions D2 and D16; the name of the refusal is the model's choice (log 18). -/
def Obligations.HostLoadsOnlyBeforeFirstStep : Prop :=
  (∀ (h : Session) (code : List RawWord) (a : Address) (v : Quad), h.started = true →
    h.move (.load code) = (h, .refused .loadDuringRun) ∧ h.move (.loadCell a v) = (h, .refused .loadDuringRun)) ∧
  (∀ (h : Session) (ms : List HostMove), h.started = true →
    (h.moves ms).started = true ∧ ∀ n : Nat, Memory.readAt (h.moves ms).core.mem n = Memory.readAt h.core.mem n) ∧
  ∀ (h : Session) (m : HostMove), m ≠ .step →
    (h.move m).1.core.reg = h.core.reg ∧ (h.move m).1.core.flag = h.core.flag ∧ (h.move m).1.core.pc = h.core.pc ∧
    (h.move m).1.core.cfg = h.core.cfg ∧ (h.move m).1.started = h.started

/-- What each move gives back. Before the first step an admitted image is loaded and an ill-formed one is refused, nothing
changed (what is admitted and that the rest is refused: R75, the spec's decision D17, log 12); a cell is loaded, its address then
reading the value and every other address as before (canonical memory: log 2). A step gives RAN and the core's step, which starts
the run, or HALTED on a halted machine, nothing changed. Observing changes nothing and shows both files, pc, the 64 cells and the
halted condition. R244 and R263, the spec's decisions D2 and D16; the moves and replies as types are the model's (log 18). -/
def Obligations.HostMovesAnswer : Prop :=
  (∀ (h : Session) (code : List RawWord) (a : Address) (v : Quad), h.started = false →
    (imageWellFormed code = true →
      (h.move (.load code)).2 = .loaded ∧ h.core.load code = .next (h.move (.load code)).1.core) ∧
    (imageWellFormed code = false → (h.move (.load code)).1 = h ∧ ∃ r, (h.move (.load code)).2 = .refused r) ∧
    h.move (.loadCell a v) = ({ h with core := h.core.loadCell a v }, .loaded) ∧
    (Memory.wf h.core.mem = true → ∀ n : Nat,
      Memory.readAt (h.move (.loadCell a v)).1.core.mem n = if n = a.linear then v else Memory.readAt h.core.mem n)) ∧
  (∀ h : Session,
    (h.core.halted = false →
      (h.move .step).2 = .ran ∧ (h.move .step).1.started = true ∧ step h.core = .next (h.move .step).1.core) ∧
    (h.core.halted = true → h.move .step = (h, .halted))) ∧
  ∀ h : Session, (h.move .observe).1 = h ∧
    ∃ o, (h.move .observe).2 = .seen o ∧ o.regs = h.core.dumpRegs ∧ o.flags = h.core.dumpFlags ∧ o.pc = h.core.pc ∧
      o.halted = h.core.halted ∧ o.mem.length = 64 ∧
      ∀ a : Address, o.mem[a.linear]? = some (Memory.read h.core.mem a)

/-- Whatever a host does, the machine keeps its invariant: a freshly constructed one has it with any parameters, and every sequence
of moves keeps it (canonical memory: log 2). -/
def Obligations.EverySessionKeepsInvariant : Prop :=
  (∀ cfg : Config, (Session.construct cfg).core.Inv ∧ (Session.construct cfg).started = false) ∧
  ∀ (h : Session) (ms : List HostMove), h.core.Inv → (h.moves ms).core.Inv

/-- What the host observes: 4 rows of 4, cell (row, column) at place `column` of row `row` (R36, the spec's decision D26). -/
def Obligations.DumpsAreRowMajor : Prop :=
  ∀ (s : State) (row col : Quad),
    s.dumpRegs.length = 4 ∧ s.dumpFlags.length = 4 ∧
    (∃ cells, s.dumpRegs[row.val]? = some cells ∧ cells.length = 4 ∧ cells[col.val]? = some (s.reg.read row col)) ∧
    (∃ cells, s.dumpFlags[row.val]? = some cells ∧ cells.length = 4 ∧ cells[col.val]? = some (s.flag.read row col))

/-! The instructions: encoding, length, completion, result, flag, and everything left unchanged -/

/-- R154. -/
def Obligations.AddWritesSumAndCarry : Prop :=
  ∀ (k0 k1 : OperandKind) (a b : Quad) (s : State), s.halted = false →
    decode ⟨0, 0, k0.rnf, k1.rnf, a, b⟩ = .add k0 k1 a b ∧ fetchLength s.cfg 0 0 = 6 ∧
    assemble (.add a.val b.val) = .ok (encode (.add .register .register a b)) ∧
    ∃ t, exec (.add k0 k1 a b) s = .next t ∧
      (t.reg.read a 0).val = ((s.resolve k0 a).val + (s.resolve k1 b).val) % 4 ∧
      (t.flag.read a 0).val = (if 4 ≤ (s.resolve k0 a).val + (s.resolve k1 b).val then 1 else 0) ∧
      OnlyWrites s t [(a, 0)] [(a, 0)]

/-- R155. -/
def Obligations.SubWritesDifferenceAndBorrow : Prop :=
  ∀ (k0 k1 : OperandKind) (a b : Quad) (s : State), s.halted = false →
    decode ⟨0, 1, k0.rnf, k1.rnf, a, b⟩ = .sub k0 k1 a b ∧ fetchLength s.cfg 0 1 = 6 ∧
    assemble (.sub a.val b.val) = .ok (encode (.sub .register .register a b)) ∧
    ∃ t, exec (.sub k0 k1 a b) s = .next t ∧
      (t.reg.read a 0).val = ((s.resolve k0 a).val + 4 - (s.resolve k1 b).val) % 4 ∧
      (t.flag.read a 0).val = (if (s.resolve k0 a).val < (s.resolve k1 b).val then 1 else 0) ∧
      OnlyWrites s t [(a, 0)] [(a, 0)]

/-- R156; the carry is 1 (not 3) by the spec's decision D9. -/
def Obligations.MulWritesProductAndCarry : Prop :=
  ∀ (k0 k1 : OperandKind) (a b : Quad) (s : State), s.halted = false →
    decode ⟨0, 2, k0.rnf, k1.rnf, a, b⟩ = .mul k0 k1 a b ∧ fetchLength s.cfg 0 2 = 6 ∧
    assemble (.mul a.val b.val) = .ok (encode (.mul .register .register a b)) ∧
    ∃ t, exec (.mul k0 k1 a b) s = .next t ∧
      (t.reg.read a 0).val = (s.resolve k0 a).val * (s.resolve k1 b).val % 4 ∧
      (t.flag.read a 0).val = (if 2 ≤ (s.resolve k0 a).val ∧ 2 ≤ (s.resolve k1 b).val then 1 else 0) ∧
      OnlyWrites s t [(a, 0)] [(a, 0)]

/-- R157: the quotient is the greatest q with q*V2 mod 4 ≤ V1, the remainder V1 less that multiple; a divisor 0 completes. The
quotient in the register and the remainder in the flag are the spec's decisions D6, D7 and D8. -/
def Obligations.DivWritesQuotientAndRemainder : Prop :=
  ∀ (k0 k1 : OperandKind) (a b : Quad) (s : State), s.halted = false →
    decode ⟨0, 3, k0.rnf, k1.rnf, a, b⟩ = .div k0 k1 a b ∧ fetchLength s.cfg 0 3 = 6 ∧
    assemble (.div a.val b.val) = .ok (encode (.div .register .register a b)) ∧
    ∃ t, exec (.div k0 k1 a b) s = .next t ∧
      (t.reg.read a 0).val * (s.resolve k1 b).val % 4 ≤ (s.resolve k0 a).val ∧
      (∀ q : Quad, (t.reg.read a 0).val < q.val → (s.resolve k0 a).val < q.val * (s.resolve k1 b).val % 4) ∧
      (t.flag.read a 0).val = (s.resolve k0 a).val - (t.reg.read a 0).val * (s.resolve k1 b).val % 4 ∧
      OnlyWrites s t [(a, 0)] [(a, 0)]

/-- R171; the flag 0 is the spec's decision D10, its write decision D11. -/
def Obligations.MinWritesMinimumAndClearsFlag : Prop :=
  ∀ (k0 k1 : OperandKind) (a b : Quad) (s : State), s.halted = false →
    decode ⟨1, 0, k0.rnf, k1.rnf, a, b⟩ = .min k0 k1 a b ∧ fetchLength s.cfg 1 0 = 6 ∧
    assemble (.min a.val b.val) = .ok (encode (.min .register .register a b)) ∧
    ∃ t, exec (.min k0 k1 a b) s = .next t ∧
      (t.reg.read a 0).val = min (s.resolve k0 a).val (s.resolve k1 b).val ∧ t.flag.read a 0 = 0 ∧
      OnlyWrites s t [(a, 0)] [(a, 0)]

/-- R172; the flag 0 is the spec's decision D10, its write decision D11. -/
def Obligations.MaxWritesMaximumAndClearsFlag : Prop :=
  ∀ (k0 k1 : OperandKind) (a b : Quad) (s : State), s.halted = false →
    decode ⟨1, 1, k0.rnf, k1.rnf, a, b⟩ = .max k0 k1 a b ∧ fetchLength s.cfg 1 1 = 6 ∧
    assemble (.max a.val b.val) = .ok (encode (.max .register .register a b)) ∧
    ∃ t, exec (.max k0 k1 a b) s = .next t ∧
      (t.reg.read a 0).val = max (s.resolve k0 a).val (s.resolve k1 b).val ∧ t.flag.read a 0 = 0 ∧
      OnlyWrites s t [(a, 0)] [(a, 0)]

/-- R173: an addition without a carry; the flag 0 is the spec's decision D10, its write decision D11. -/
def Obligations.ModWritesSumAndClearsFlag : Prop :=
  ∀ (k0 k1 : OperandKind) (a b : Quad) (s : State), s.halted = false →
    decode ⟨1, 2, k0.rnf, k1.rnf, a, b⟩ = .mod k0 k1 a b ∧ fetchLength s.cfg 1 2 = 6 ∧
    assemble (.mod a.val b.val) = .ok (encode (.mod .register .register a b)) ∧
    ∃ t, exec (.mod k0 k1 a b) s = .next t ∧
      (t.reg.read a 0).val = ((s.resolve k0 a).val + (s.resolve k1 b).val) % 4 ∧ t.flag.read a 0 = 0 ∧
      OnlyWrites s t [(a, 0)] [(a, 0)]

/-- R174: 3 less the greater operand; as assembled (B = 0), R0 enters. The flag 0 is the spec's decision D10, its write
decision D11. -/
def Obligations.NotWritesComplementOfMaximum : Prop :=
  ∀ (k0 k1 : OperandKind) (a b : Quad) (s : State), s.halted = false →
    decode ⟨1, 3, k0.rnf, k1.rnf, a, b⟩ = .not k0 k1 a b ∧ fetchLength s.cfg 1 3 = 6 ∧
    assemble (.not a.val) = .ok (encode (.not .register .register a 0)) ∧
    ∃ t, exec (.not k0 k1 a b) s = .next t ∧
      (t.reg.read a 0).val = 3 - max (s.resolve k0 a).val (s.resolve k1 b).val ∧ t.flag.read a 0 = 0 ∧
      OnlyWrites s t [(a, 0)] [(a, 0)]

/-- R191: V2 into register A, no memory read; the flag 0 is the spec's decision D10, its write decision D11. -/
def Obligations.LoadCopiesSecondOperand : Prop :=
  ∀ (k0 k1 : OperandKind) (a b : Quad) (s : State), s.halted = false →
    decode ⟨2, 0, k0.rnf, k1.rnf, a, b⟩ = .load k0 k1 a b ∧ fetchLength s.cfg 2 0 = 6 ∧
    assemble (.load a.val b.val) = .ok (encode (.load .register .immediate a b)) ∧
    ∃ t, exec (.load k0 k1 a b) s = .next t ∧
      t.reg.read a 0 = s.resolve k1 b ∧ t.flag.read a 0 = 0 ∧ OnlyWrites s t [(a, 0)] [(a, 0)]

/-- R192: as LOAD, and no memory is written; the flag 0 is the spec's decision D10, its write decision D11. -/
def Obligations.StoreCopiesSecondOperand : Prop :=
  ∀ (k0 k1 : OperandKind) (a b : Quad) (s : State), s.halted = false →
    decode ⟨2, 1, k0.rnf, k1.rnf, a, b⟩ = .store k0 k1 a b ∧ fetchLength s.cfg 2 1 = 6 ∧
    assemble (.store a.val b.val) = .ok (encode (.store .register .register a b)) ∧
    ∃ t, exec (.store k0 k1 a b) s = .next t ∧
      t.reg.read a 0 = s.resolve k1 b ∧ t.flag.read a 0 = 0 ∧ OnlyWrites s t [(a, 0)] [(a, 0)]

/-- R193: V1 into register B, the flag row being A's; the flag 0 is the spec's decision D10, its write decision D11. -/
def Obligations.CopyWritesFirstOperandToB : Prop :=
  ∀ (k0 k1 : OperandKind) (a b : Quad) (s : State), s.halted = false →
    decode ⟨2, 2, k0.rnf, k1.rnf, a, b⟩ = .copy k0 k1 a b ∧ fetchLength s.cfg 2 2 = 6 ∧
    assemble (.copy b.val a.val) = .ok (encode (.copy .register .register a b)) ∧
    ∃ t, exec (.copy k0 k1 a b) s = .next t ∧
      t.reg.read b 0 = s.resolve k0 a ∧ t.flag.read a 0 = 0 ∧ OnlyWrites s t [(b, 0)] [(a, 0)]

/-- R194: the halt flag becomes 3 and flag (0,0) becomes 0 (the latter the spec's decision D11); at a pc where HLT stands the
step moves the pc by 2, and the machine it leaves has no further step. -/
def Obligations.HltSetsHaltFlag : Prop :=
  (∀ r0 r1 a b : Quad, decode ⟨2, 3, r0, r1, a, b⟩ = .hlt) ∧
  (∀ s : State, s.halted = false → fetchLength s.cfg 2 3 = 2 ∧
    ∃ t, exec .hlt s = .next t ∧ t.flag.read 3 3 = 3 ∧ t.flag.read 0 0 = 0 ∧
      OnlyWrites s t [] [(0, 0), (3, 3)] ∧ step t = .fault .halted) ∧
  ∀ s : State, s.halted = false → s.quadAhead 0 = 2 → s.quadAhead 1 = 3 →
    ∃ t, step s = .next t ∧ t.pc.linear = (s.pc.linear + 2) % 64 ∧ t.flag.read 3 3 = 3 ∧ t.flag.read 0 0 = 0 ∧
      t.reg = s.reg ∧ t.mem = s.mem

/-- R211 to R214: CALL, JMP, JCMP and RET clear flag (A,0) and do nothing else; the flag write is the spec's decision D11. -/
def Obligations.FunctionClassOnlyClearsFlag : Prop :=
  ∀ (k0 k1 : OperandKind) (a b : Quad) (s : State), s.halted = false →
    decode ⟨3, 0, k0.rnf, k1.rnf, a, b⟩ = .call k0 k1 a b ∧ decode ⟨3, 1, k0.rnf, k1.rnf, a, b⟩ = .jmp k0 k1 a b ∧
    decode ⟨3, 2, k0.rnf, k1.rnf, a, b⟩ = .jcmp k0 k1 a b ∧ decode ⟨3, 3, k0.rnf, k1.rnf, a, b⟩ = .ret k0 k1 a b ∧
    ∀ i : Instr, i = .call k0 k1 a b ∨ i = .jmp k0 k1 a b ∨ i = .jcmp k0 k1 a b ∨ i = .ret k0 k1 a b →
      ∃ t, exec i s = .next t ∧ t.flag.read a 0 = 0 ∧ OnlyWrites s t [] [(a, 0)]
end

