-- ==== Sys2Proof/Laws/State.lean ====
section
/-! SUPPORT. One lemma per field per update of State, true by rfl, so that no later proof unfolds a record update. -/

namespace Sys2Proof.Machine

variable (s : State) (x row col v f en : Quad) (a : Address)

@[simp] theorem State.writeReg_mem : (s.writeReg x v).mem = s.mem := rfl
@[simp] theorem State.writeReg_flag : (s.writeReg x v).flag = s.flag := rfl
@[simp] theorem State.writeReg_pc : (s.writeReg x v).pc = s.pc := rfl
@[simp] theorem State.writeReg_cfg : (s.writeReg x v).cfg = s.cfg := rfl
@[simp] theorem State.writeReg_reg : (s.writeReg x v).reg = s.reg.write x 0 v := rfl

@[simp] theorem State.writeFlag_mem : (s.writeFlag row col v).mem = s.mem := rfl
@[simp] theorem State.writeFlag_reg : (s.writeFlag row col v).reg = s.reg := rfl
@[simp] theorem State.writeFlag_pc : (s.writeFlag row col v).pc = s.pc := rfl
@[simp] theorem State.writeFlag_cfg : (s.writeFlag row col v).cfg = s.cfg := rfl
@[simp] theorem State.writeFlag_flag : (s.writeFlag row col v).flag = s.flag.write row col v := rfl

@[simp] theorem State.writeCondFlag_mem : (s.writeCondFlag x f).mem = s.mem := rfl
@[simp] theorem State.writeCondFlag_reg : (s.writeCondFlag x f).reg = s.reg := rfl
@[simp] theorem State.writeCondFlag_pc : (s.writeCondFlag x f).pc = s.pc := rfl
@[simp] theorem State.writeCondFlag_cfg : (s.writeCondFlag x f).cfg = s.cfg := rfl
@[simp] theorem State.writeCondFlag_flag : (s.writeCondFlag x f).flag = s.flag.write x 0 f := rfl

@[simp] theorem State.gateReg_mem : (s.gateReg x en v).mem = s.mem := rfl
@[simp] theorem State.gateReg_flag : (s.gateReg x en v).flag = s.flag := rfl
@[simp] theorem State.gateReg_pc : (s.gateReg x en v).pc = s.pc := rfl
@[simp] theorem State.gateReg_cfg : (s.gateReg x en v).cfg = s.cfg := rfl
@[simp] theorem State.gateReg_reg : (s.gateReg x en v).reg = (s.reg.run x 0 en v).2 := rfl

@[simp] theorem State.gateFlag_mem : (s.gateFlag row col en v).mem = s.mem := rfl
@[simp] theorem State.gateFlag_reg : (s.gateFlag row col en v).reg = s.reg := rfl
@[simp] theorem State.gateFlag_pc : (s.gateFlag row col en v).pc = s.pc := rfl
@[simp] theorem State.gateFlag_cfg : (s.gateFlag row col en v).cfg = s.cfg := rfl
@[simp] theorem State.gateFlag_flag : (s.gateFlag row col en v).flag = (s.flag.run row col en v).2 := rfl

@[simp] theorem State.fetchQuad_mem : s.fetchQuad.2.mem = s.mem := rfl
@[simp] theorem State.fetchQuad_reg : s.fetchQuad.2.reg = s.reg := rfl
@[simp] theorem State.fetchQuad_flag : s.fetchQuad.2.flag = s.flag := rfl
@[simp] theorem State.fetchQuad_pc : s.fetchQuad.2.pc = s.pc.succ := rfl
@[simp] theorem State.fetchQuad_cfg : s.fetchQuad.2.cfg = s.cfg := rfl
@[simp] theorem State.fetchQuad_quad : s.fetchQuad.1 = Memory.read s.mem s.pc := rfl

@[simp] theorem State.loadCell_mem : (s.loadCell a v).mem = Memory.write s.mem a v := rfl
@[simp] theorem State.loadCell_reg : (s.loadCell a v).reg = s.reg := rfl
@[simp] theorem State.loadCell_flag : (s.loadCell a v).flag = s.flag := rfl
@[simp] theorem State.loadCell_pc : (s.loadCell a v).pc = s.pc := rfl
@[simp] theorem State.loadCell_cfg : (s.loadCell a v).cfg = s.cfg := rfl

theorem State.readReg_eq : s.readReg x = s.reg.read x 0 := rfl
theorem State.readFlag_eq : s.readFlag row col = s.flag.read row col := rfl
theorem State.halted_eq : s.halted = (s.flag.read 3 3 != 0) := rfl

end Sys2Proof.Machine
end

