-- ==== Sys2Proof/Laws/Memory.lean ====
section
/-! SUPPORT. What the memory operations do: read after write, and the canonical form that every one of them keeps (spec/
20_memory.md R65, R66). -/

namespace Sys2Proof.Machine

theorem Address.linear_lt (a : Address) : a.linear < 64 := by
  unfold Address.linear
  omega

@[simp] theorem Memory.wfFrom_nil (lo : Nat) : Memory.wfFrom lo [] = true := rfl

theorem Memory.wfFrom_cons {lo k : Nat} {v : Quad} {rest : Memory} :
    Memory.wfFrom lo ((k, v) :: rest) = true ↔
      lo ≤ k ∧ k < 64 ∧ v ≠ unlistedQuad ∧ Memory.wfFrom (k + 1) rest = true := by
  simp [Memory.wfFrom, and_assoc]

theorem Memory.wfFrom_mono {lo lo' : Nat} {m : Memory} (h : lo' ≤ lo) (hm : Memory.wfFrom lo m = true) :
    Memory.wfFrom lo' m = true := by
  cases m with
  | nil => rfl
  | cons c rest =>
    obtain ⟨k, v⟩ := c
    obtain ⟨hk, hrest⟩ := Memory.wfFrom_cons.mp hm
    exact Memory.wfFrom_cons.mpr ⟨h.trans hk, hrest⟩

/-- Below the canonical form's lower bound nothing is listed. -/
theorem Memory.readAt_below {lo n : Nat} {m : Memory} (hm : Memory.wfFrom lo m = true) (hn : n < lo) :
    Memory.readAt m n = unlistedQuad := by
  induction m generalizing lo with
  | nil => rfl
  | cons c rest ih =>
    obtain ⟨k, v⟩ := c
    obtain ⟨hk, _, _, hrest⟩ := Memory.wfFrom_cons.mp hm
    have hne : k ≠ n := by omega
    simpa [Memory.readAt, hne] using ih hrest (by omega)

/-- No cell from 64 on is listed. -/
theorem Memory.readAt_outside {lo n : Nat} {m : Memory} (hm : Memory.wfFrom lo m = true) (hn : 64 ≤ n) :
    Memory.readAt m n = unlistedQuad := by
  induction m generalizing lo with
  | nil => rfl
  | cons c rest ih =>
    obtain ⟨k, v⟩ := c
    obtain ⟨_, hk, _, hrest⟩ := Memory.wfFrom_cons.mp hm
    have hne : k ≠ n := by omega
    simpa [Memory.readAt, hne] using ih hrest

theorem Memory.wfFrom_putFront {lo n : Nat} {v : Quad} {m : Memory} (hlo : lo ≤ n) (hn : n < 64)
    (hm : Memory.wfFrom (n + 1) m = true) : Memory.wfFrom lo (Memory.putFront n v m) = true := by
  unfold Memory.putFront
  split
  · exact Memory.wfFrom_mono (by omega) hm
  · rename_i hv
    exact Memory.wfFrom_cons.mpr ⟨hlo, hn, hv, hm⟩

theorem Memory.wfFrom_writeAt {lo n : Nat} {v : Quad} {m : Memory} (hlo : lo ≤ n) (hn : n < 64)
    (hm : Memory.wfFrom lo m = true) : Memory.wfFrom lo (Memory.writeAt m n v) = true := by
  induction m generalizing lo with
  | nil => exact Memory.wfFrom_putFront hlo hn rfl
  | cons c rest ih =>
    obtain ⟨k, u⟩ := c
    obtain ⟨hk, hk64, hu, hrest⟩ := Memory.wfFrom_cons.mp hm
    unfold Memory.writeAt
    split
    · exact Memory.wfFrom_putFront hlo hn (Memory.wfFrom_cons.mpr ⟨by omega, hk64, hu, hrest⟩)
    · split
      · rename_i heq
        subst heq
        exact Memory.wfFrom_putFront hlo hn hrest
      · exact Memory.wfFrom_cons.mpr ⟨hk, hk64, hu, ih (by omega) hrest⟩

/-- A write keeps the canonical form. -/
theorem Memory.wf_write {m : Memory} (a : Address) (v : Quad) (hm : Memory.wf m = true) :
    Memory.wf (Memory.write m a v) = true :=
  Memory.wfFrom_writeAt (Nat.zero_le _) a.linear_lt hm

/-- Memory's one operation keeps the canonical form. -/
theorem Memory.wf_run {m : Memory} (a : Address) (en v : Quad) (hm : Memory.wf m = true) :
    Memory.wf (Memory.run m a en v).2 = true := by
  unfold Memory.run
  split
  · exact hm
  · exact Memory.wf_write a v hm

theorem Memory.readAt_putFront {n n' : Nat} {v : Quad} {m : Memory} (hm : Memory.wfFrom (n + 1) m = true) :
    Memory.readAt (Memory.putFront n v m) n' = if n' = n then v else Memory.readAt m n' := by
  unfold Memory.putFront
  split
  · rename_i hv
    split
    · rename_i h
      rw [h, hv, Memory.readAt_below hm (by omega)]
    · rfl
  · by_cases h : n' = n
    · simp [Memory.readAt, h]
    · simp [Memory.readAt, h, Ne.symm h]

/-- Reading after a write: the written cell holds the value, every other one is as before. -/
theorem Memory.readAt_writeAt {lo n n' : Nat} {v : Quad} {m : Memory} (hm : Memory.wfFrom lo m = true) :
    Memory.readAt (Memory.writeAt m n v) n' = if n' = n then v else Memory.readAt m n' := by
  induction m generalizing lo with
  | nil => exact Memory.readAt_putFront rfl
  | cons c rest ih =>
    obtain ⟨k, u⟩ := c
    obtain ⟨_, hk64, hu, hrest⟩ := Memory.wfFrom_cons.mp hm
    unfold Memory.writeAt
    split
    · rename_i hlt
      exact Memory.readAt_putFront (Memory.wfFrom_cons.mpr ⟨by omega, hk64, hu, hrest⟩)
    · split
      · rename_i heq
        subst heq
        rw [Memory.readAt_putFront hrest]
        by_cases h : n' = n
        · simp [h]
        · simp [Memory.readAt, h, Ne.symm h]
      · rename_i hne
        have hk : n ≠ k := hne
        simp only [Memory.readAt]
        split
        · rename_i h
          subst h
          rw [if_neg (Ne.symm hk)]
        · exact ih hrest

theorem Memory.readAt_write {m : Memory} (hm : Memory.wf m = true) (a : Address) (v : Quad) (n : Nat) :
    Memory.readAt (Memory.write m a v) n = if n = a.linear then v else Memory.readAt m n :=
  Memory.readAt_writeAt hm

theorem Memory.run_disabled (m : Memory) (a : Address) (v : Quad) : Memory.run m a 0 v = (Memory.read m a, m) := rfl

theorem Memory.run_enabled (m : Memory) (a : Address) (v : Quad) {en : Quad} (h : en ≠ 0) :
    Memory.run m a en v = (Memory.read (Memory.write m a v) a, Memory.write m a v) := by
  simp [Memory.run, h]

/-- The host's cell load keeps the canonical form. -/
theorem State.loadCell_wf {s : State} (a : Address) (v : Quad) (h : Memory.wf s.mem = true) :
    Memory.wf (s.loadCell a v).mem = true :=
  Memory.wf_write a v h

theorem State.loadWord_wf {s : State} (a : Address) (w : InstrWord) (h : Memory.wf s.mem = true) :
    Memory.wf (s.loadWord a w).mem = true := by
  unfold State.loadWord
  repeat' apply State.loadCell_wf
  exact h

theorem State.loadFrom_wf {s : State} (i : Nat) (code : List InstrWord) (h : Memory.wf s.mem = true) :
    Memory.wf (s.loadFrom i code).mem = true := by
  induction code generalizing s i with
  | nil => exact h
  | cons w rest ih => exact ih (i + 1) (State.loadWord_wf _ w h)

/-- Storing an instruction for the next fetch keeps the canonical form. -/
theorem State.withFetchWord_wf {s : State} (nbits w : Nat) (h : Memory.wf s.mem = true) :
    Memory.wf (s.withFetchWord nbits w).mem = true :=
  State.loadWord_wf _ _ h

theorem State.reset_memory_wf : Memory.wf State.reset.mem = true := rfl

end Sys2Proof.Machine
end

