-- ==== Sys2Proof/Laws/PerInstr.lean ====
section
/-! SUPPORT. The opcode of each instruction: its word carries the class and subop of its own row of the opcode table, under
its own mnemonic, and its operand fields where it has any (spec/30_encoding.md R91, R101). -/

namespace Sys2Proof.Laws

/-- The word of `i` matches the row of the opcode table that bears its mnemonic, and no other row. -/
def OpcodeRowMatches.Statement (i : Instr) : Prop :=
  opcodeTable.filter (fun r => r.matchesWord (encode i)) =
    [{ cls := (encode i).cls, subop := (encode i).subop, mnemonic := i.mnemonic }]

theorem OpcodeRowMatches.add (k0 k1 : OperandKind) (a b : Quad) : OpcodeRowMatches.Statement (.add k0 k1 a b) := rfl
theorem OpcodeRowMatches.sub (k0 k1 : OperandKind) (a b : Quad) : OpcodeRowMatches.Statement (.sub k0 k1 a b) := rfl
theorem OpcodeRowMatches.mul (k0 k1 : OperandKind) (a b : Quad) : OpcodeRowMatches.Statement (.mul k0 k1 a b) := rfl
theorem OpcodeRowMatches.div (k0 k1 : OperandKind) (a b : Quad) : OpcodeRowMatches.Statement (.div k0 k1 a b) := rfl
theorem OpcodeRowMatches.min (k0 k1 : OperandKind) (a b : Quad) : OpcodeRowMatches.Statement (.min k0 k1 a b) := rfl
theorem OpcodeRowMatches.max (k0 k1 : OperandKind) (a b : Quad) : OpcodeRowMatches.Statement (.max k0 k1 a b) := rfl
theorem OpcodeRowMatches.mod (k0 k1 : OperandKind) (a b : Quad) : OpcodeRowMatches.Statement (.mod k0 k1 a b) := rfl
theorem OpcodeRowMatches.not (k0 k1 : OperandKind) (a b : Quad) : OpcodeRowMatches.Statement (.not k0 k1 a b) := rfl
theorem OpcodeRowMatches.load (k0 k1 : OperandKind) (a b : Quad) : OpcodeRowMatches.Statement (.load k0 k1 a b) := rfl
theorem OpcodeRowMatches.store (k0 k1 : OperandKind) (a b : Quad) : OpcodeRowMatches.Statement (.store k0 k1 a b) := rfl
theorem OpcodeRowMatches.copy (k0 k1 : OperandKind) (a b : Quad) : OpcodeRowMatches.Statement (.copy k0 k1 a b) := rfl
theorem OpcodeRowMatches.hlt : OpcodeRowMatches.Statement .hlt := rfl
theorem OpcodeRowMatches.call (k0 k1 : OperandKind) (a b : Quad) : OpcodeRowMatches.Statement (.call k0 k1 a b) := rfl
theorem OpcodeRowMatches.jmp (k0 k1 : OperandKind) (a b : Quad) : OpcodeRowMatches.Statement (.jmp k0 k1 a b) := rfl
theorem OpcodeRowMatches.jcmp (k0 k1 : OperandKind) (a b : Quad) : OpcodeRowMatches.Statement (.jcmp k0 k1 a b) := rfl
theorem OpcodeRowMatches.ret (k0 k1 : OperandKind) (a b : Quad) : OpcodeRowMatches.Statement (.ret k0 k1 a b) := rfl

end Sys2Proof.Laws
end

