-- ==== Sys2Proof/Laws/RegFile.lean ====
section
/-! SUPPORT. What the register-file operations do: the cell written holds the value, every other cell is as before (spec/
10_state.md R33, R37), and what operand resolution reads. -/

namespace Sys2Proof.Machine

theorem Four.get_set {α : Type} (x : Four α) (i j : Quad) (v : α) :
    (x.set i v).get j = if j = i then v else x.get j := by
  fin_cases i <;> fin_cases j <;> rfl

theorem Four.ext_get {α : Type} {x y : Four α} (h : ∀ i, x.get i = y.get i) : x = y := by
  cases x; cases y
  simpa only [Four.mk.injEq] using ⟨h 0, h 1, h 2, h 3⟩

theorem RegFile.read_write (f : RegFile) (row col row' col' v : Quad) :
    (f.write row col v).read row' col' = if row' = row ∧ col' = col then v else f.read row' col' := by
  unfold RegFile.read RegFile.write
  rw [Four.get_set]
  by_cases h : row' = row
  · subst h; simp [Four.get_set]
  · simp [h]

@[simp] theorem RegFile.read_write_same (f : RegFile) (row col v : Quad) :
    (f.write row col v).read row col = v := by
  simp [RegFile.read_write]

theorem RegFile.read_write_other (f : RegFile) {row col row' col' v : Quad} (h : (row', col') ≠ (row, col)) :
    (f.write row col v).read row' col' = f.read row' col' := by
  rw [RegFile.read_write, if_neg]
  rintro ⟨rfl, rfl⟩
  exact h rfl

theorem RegFile.ext_read {f g : RegFile} (h : ∀ row col, f.read row col = g.read row col) : f = g :=
  Four.ext_get fun row => Four.ext_get fun col => h row col

theorem RegFile.run_disabled (f : RegFile) (row col v : Quad) : f.run row col 0 v = (f.read row col, f) := rfl

theorem RegFile.run_enabled (f : RegFile) (row col v : Quad) {en : Quad} (h : en ≠ 0) :
    f.run row col en v = (v, f.write row col v) := by
  simp [RegFile.run, h]

/-- All that operand resolution reads: column 0 of the two files, the field, the parameter (spec/30_encoding.md R94). -/
theorem State.resolve_spec (s : State) (k : OperandKind) (x : Quad) :
    (k = .register ∧ s.resolve k x = s.reg.read x 0) ∨ (k = .flag ∧ s.resolve k x = s.flag.read x 0) ∨
    (k = .immediate ∧ s.resolve k x = x) ∨ (k = .reserved ∧ s.resolve k x = s.cfg.rnf3Value) := by
  cases k
  · exact .inl ⟨rfl, rfl⟩
  · exact .inr (.inl ⟨rfl, rfl⟩)
  · exact .inr (.inr (.inl ⟨rfl, rfl⟩))
  · exact .inr (.inr (.inr ⟨rfl, rfl⟩))

theorem State.resolve_congr {s t : State} (hr : ∀ row, s.reg.read row 0 = t.reg.read row 0)
    (hf : ∀ row, s.flag.read row 0 = t.flag.read row 0) (hc : s.cfg = t.cfg) (k : OperandKind) (x : Quad) :
    s.resolve k x = t.resolve k x := by
  cases k
  · exact hr x
  · exact hf x
  · rfl
  · exact congrArg Config.rnf3Value hc

/-- The flag write of an instruction, cell by cell (spec/40_execution.md R132). -/
theorem State.writeCondFlag_read (s : State) (x f row col : Quad) :
    (s.writeCondFlag x f).flag.read row col = if row = x ∧ col = 0 then f else s.flag.read row col := by
  simp [RegFile.read_write]

/-- A register write, cell by cell (spec/40_execution.md R133). -/
theorem State.writeReg_read (s : State) (x v row col : Quad) :
    (s.writeReg x v).reg.read row col = if row = x ∧ col = 0 then v else s.reg.read row col := by
  simp [RegFile.read_write]

/-- Everything an ALU instruction does to the state. -/
theorem State.aluEffect_spec (unit : Unit2) (k0 k1 : OperandKind) (a b : Quad) (s : State) :
    (s.aluEffect unit k0 k1 a b).reg = s.reg.write a 0 (unit (s.resolve k0 a) (s.resolve k1 b)).2 ∧
    (s.aluEffect unit k0 k1 a b).flag = s.flag.write a 0 (unit (s.resolve k0 a) (s.resolve k1 b)).1 ∧
    (s.aluEffect unit k0 k1 a b).mem = s.mem ∧ (s.aluEffect unit k0 k1 a b).pc = s.pc ∧
    (s.aluEffect unit k0 k1 a b).cfg = s.cfg :=
  ⟨rfl, rfl, rfl, rfl, rfl⟩

/-- Everything a move of the code class does to the state. -/
theorem State.moveEffect_spec (a dst v : Quad) (s : State) :
    (s.moveEffect a dst v).reg = s.reg.write dst 0 v ∧ (s.moveEffect a dst v).flag = s.flag.write a 0 0 ∧
    (s.moveEffect a dst v).mem = s.mem ∧ (s.moveEffect a dst v).pc = s.pc ∧ (s.moveEffect a dst v).cfg = s.cfg :=
  ⟨rfl, rfl, rfl, rfl, rfl⟩

end Sys2Proof.Machine
end

