-- ==== Sys2Proof/Laws/Step.lean ====
section
/-! SUPPORT. What FETCH, an instruction and a step can do, said once. -/

namespace Sys2Proof.Machine

theorem State.unlessHalted_next {s t u : State} :
    s.unlessHalted t = .next u ↔ s.halted = false ∧ u = t := by
  unfold State.unlessHalted
  cases s.halted <;> simp [eq_comm]

theorem State.unlessHalted_running {s : State} (t : State) (h : s.halted = false) :
    s.unlessHalted t = .next t := by
  simp [State.unlessHalted, h]

theorem State.unlessHalted_halted {s : State} (t : State) (h : s.halted = true) :
    s.unlessHalted t = .fault .halted := by
  simp [State.unlessHalted, h]

@[simp] theorem Address.advance_zero (a : Address) : a.advance 0 = a := rfl

theorem Address.advance_succ (a : Address) (n : Nat) : a.advance (n + 1) = a.succ.advance n := rfl

/-- Digit triples with one linear address are one triple (spec/20_memory.md R63). -/
theorem Address.linear_injective {a b : Address} (h : a.linear = b.linear) : a = b := by
  obtain ⟨a0, a1, a2⟩ := a
  obtain ⟨b0, b1, b2⟩ := b
  simp only [Address.linear] at h
  have h0 : a0 = b0 := Fin.ext (by omega)
  have h1 : a1 = b1 := Fin.ext (by omega)
  have h2 : a2 = b2 := Fin.ext (by omega)
  rw [h0, h1, h2]

/-- The ripple-carry advance by one, seen linearly. -/
theorem Address.linear_succ (a : Address) : a.succ.linear = (a.linear + 1) % 64 := by
  obtain ⟨low, mid, high⟩ := a
  revert low mid high
  decide

/-- `n` advances, seen linearly. -/
theorem Address.linear_advance (a : Address) (n : Nat) : (a.advance n).linear = (a.linear + n) % 64 := by
  induction n generalizing a with
  | zero =>
    have := a.linear_lt
    simp only [Address.advance_zero, Nat.add_zero]
    omega
  | succ n ih =>
    rw [Address.advance_succ, ih, Address.linear_succ]
    omega

/-- The quad `n` advances past the pc is the quad `n` places ahead. -/
theorem State.read_advance (s : State) (n : Nat) : Memory.read s.mem (s.pc.advance n) = s.quadAhead n := by
  unfold Memory.read State.quadAhead
  rw [Address.linear_advance]

/-- A word stored at an address whose six cells do not wrap: its quads in order, every other cell as before. -/
theorem State.loadWord_readAt {s : State} (a : Address) (w : InstrWord) (n : Nat) (hm : Memory.wf s.mem = true)
    (ha : a.linear + 6 ≤ 64) :
    Memory.readAt (s.loadWord a w).mem n =
      if n = a.linear then w.cls else if n = a.linear + 1 then w.subop else if n = a.linear + 2 then w.rnf0
      else if n = a.linear + 3 then w.rnf1 else if n = a.linear + 4 then w.a else if n = a.linear + 5 then w.b
      else Memory.readAt s.mem n := by
  have hl : ∀ j, j < 6 → (a.advance j).linear = a.linear + j := by
    intro j hj
    rw [Address.linear_advance]
    omega
  unfold State.loadWord
  simp only [State.loadCell_mem]
  rw [Memory.readAt_write, Memory.readAt_write, Memory.readAt_write, Memory.readAt_write, Memory.readAt_write,
    Memory.readAt_write, hl 1 (by omega), hl 2 (by omega), hl 3 (by omega), hl 4 (by omega), hl 5 (by omega)]
  · split_ifs <;> first | rfl | omega
  all_goals
    repeat' apply Memory.wf_write
    exact hm

/-- FETCH of a two-quad instruction: the padding is 0 and the pc moves by 2 (spec/40_execution.md R123). -/
theorem State.fetch_short (s : State)
    (h : operandCount s.cfg (Memory.read s.mem s.pc) (Memory.read s.mem (s.pc.advance 1)) = 0) :
    s.fetch = ({ cls := Memory.read s.mem s.pc, subop := Memory.read s.mem (s.pc.advance 1),
                 rnf0 := 0, rnf1 := 0, a := 0, b := 0 }, { s with pc := s.pc.advance 2 }) :=
  (if_pos h).trans rfl

/-- FETCH of a six-quad instruction (spec/40_execution.md R123). -/
theorem State.fetch_long (s : State)
    (h : operandCount s.cfg (Memory.read s.mem s.pc) (Memory.read s.mem (s.pc.advance 1)) ≠ 0) :
    s.fetch = ({ cls := Memory.read s.mem s.pc, subop := Memory.read s.mem (s.pc.advance 1),
                 rnf0 := Memory.read s.mem (s.pc.advance 2), rnf1 := Memory.read s.mem (s.pc.advance 3),
                 a := Memory.read s.mem (s.pc.advance 4), b := Memory.read s.mem (s.pc.advance 5) },
               { s with pc := s.pc.advance 6 }) :=
  (if_neg h).trans rfl

/-- FETCH moves the pc by the fetched length and changes nothing else (spec/40_execution.md R123, R125). -/
theorem State.fetch_state (s : State) :
    s.fetch.2 = { s with
      pc := s.pc.advance (fetchLength s.cfg (Memory.read s.mem s.pc) (Memory.read s.mem (s.pc.advance 1))) } := by
  unfold fetchLength
  split
  · rename_i h; rw [State.fetch_short s h]
  · rename_i h; rw [State.fetch_long s h]

@[simp] theorem State.fetch_mem (s : State) : s.fetch.2.mem = s.mem := by rw [State.fetch_state]
@[simp] theorem State.fetch_reg (s : State) : s.fetch.2.reg = s.reg := by rw [State.fetch_state]
@[simp] theorem State.fetch_flag (s : State) : s.fetch.2.flag = s.flag := by rw [State.fetch_state]
@[simp] theorem State.fetch_cfg (s : State) : s.fetch.2.cfg = s.cfg := by rw [State.fetch_state]
@[simp] theorem State.fetch_halted (s : State) : s.fetch.2.halted = s.halted := by
  simp [State.halted_eq]

/-- The fetched word depends on memory, the pc and the parameters only. -/
theorem State.fetch_word_congr {s t : State} (hm : s.mem = t.mem) (hp : s.pc = t.pc) (hc : s.cfg = t.cfg) :
    s.fetch.1 = t.fetch.1 := by
  by_cases h : operandCount s.cfg (Memory.read s.mem s.pc) (Memory.read s.mem (s.pc.advance 1)) = 0
  · rw [State.fetch_short s h, State.fetch_short t (by rwa [← hm, ← hp, ← hc]), hm, hp]
  · rw [State.fetch_long s h, State.fetch_long t (by rwa [← hm, ← hp, ← hc]), hm, hp]

/-- Everything an instruction can do when it answers a next state: the flag write of every instruction, with one register
written (arithmetic, logic, LOAD, STORE, COPY), with the halt flag set (HLT), or alone (function class) (spec/
40_execution.md R136). -/
theorem exec_next_cases {i : Instr} {s t : State} (h : exec i s = .next t) :
    s.halted = false ∧
    ((∃ x f dst v, t = (s.writeCondFlag x f).writeReg dst v) ∨
     (i = .hlt ∧ t = (s.writeCondFlag 0 noFlag).writeFlag 3 3 3) ∨
     (∃ x, t = s.writeCondFlag x noFlag)) := by
  cases i <;> obtain ⟨hr, rfl⟩ := State.unlessHalted_next.mp h <;> refine ⟨hr, ?_⟩
  case hlt => exact .inr (.inl ⟨rfl, rfl⟩)
  case call x _ => exact .inr (.inr ⟨x, rfl⟩)
  case jmp x _ => exact .inr (.inr ⟨x, rfl⟩)
  case jcmp x _ => exact .inr (.inr ⟨x, rfl⟩)
  case ret x _ => exact .inr (.inr ⟨x, rfl⟩)
  all_goals exact .inl ⟨_, _, _, _, rfl⟩

/-- A step that answers a next state ran on a machine not halted, and is the decoded instruction after FETCH. -/
theorem step_next_inv {s t : State} (h : step s = .next t) :
    s.halted = false ∧ exec (decode s.fetch.1) s.fetch.2 = .next t := by
  unfold step at h
  split at h
  · cases h
  · rename_i hr
    exact ⟨by simpa using hr, h⟩

/-- A step changes neither memory nor the parameters. -/
theorem step_next_fixed {s t : State} (h : step s = .next t) : t.mem = s.mem ∧ t.cfg = s.cfg := by
  obtain ⟨_, ⟨_, _, _, _, rfl⟩ | ⟨_, rfl⟩ | ⟨_, rfl⟩⟩ := exec_next_cases (step_next_inv h).2 <;> simp

theorem runSteps_zero (s : State) : runSteps 0 s = .next s := rfl

theorem runSteps_succ (k : Nat) (s : State) :
    runSteps (k + 1) s =
      match step s with
      | .next t => runSteps k t
      | .fault r => .fault r
      | .refused r => .refused r := by
  unfold runSteps
  simp only [Host.Core.run]
  rw [show Sys2Proof.core.step s = step s from rfl]
  cases step s <;> rfl

end Sys2Proof.Machine
end

