-- ==== Sys2Proof/Laws/Session.lean ====
section
/-! SUPPORT. What a move of the host can do, said once. -/

namespace Sys2Proof.Machine

theorem Session.loadWith_started {h : Session} (hs : h.started = true) (o : Host.Outcome State Fault Refusal) :
    h.loadWith o = (h, .refused .loadDuringRun) := by
  simp [Session.loadWith, hs]

/-- A load leaves the session or, before the first step, puts the loaded core into it. -/
theorem Session.loadWith_cases (h : Session) (o : Host.Outcome State Fault Refusal) :
    (h.loadWith o).1 = h ∨ h.started = false ∧ ∃ t, o = .next t ∧ h.loadWith o = ({ h with core := t }, .loaded) := by
  unfold Session.loadWith
  rcases hs : h.started with _ | _
  · rcases o with t | ⟨⟩ | r
    · exact .inr ⟨rfl, t, rfl, by simp⟩
    · exact .inl rfl
    · exact .inl rfl
  · exact .inl rfl

/-- A step of the session leaves it or makes a step of the core and marks the run as started. -/
theorem Session.stepOnce_cases (h : Session) :
    h.stepOnce.1 = h ∨ ∃ t, step h.core = .next t ∧ h.stepOnce = ({ core := t, started := true }, .ran) := by
  unfold Session.stepOnce
  rcases hs : step h.core with t | ⟨⟩ | r
  · exact .inr ⟨t, rfl, rfl⟩
  · exact .inl rfl
  · exact .inl rfl

@[simp] theorem Session.moves_nil (h : Session) : h.moves [] = h := rfl

@[simp] theorem Session.moves_cons (h : Session) (m : HostMove) (rest : List HostMove) :
    h.moves (m :: rest) = (h.move m).1.moves rest := rfl

/-- A load writes memory and nothing else. -/
theorem State.loadFrom_frame (s : State) (i : Nat) (code : List InstrWord) :
    (s.loadFrom i code).reg = s.reg ∧ (s.loadFrom i code).flag = s.flag ∧ (s.loadFrom i code).pc = s.pc ∧
    (s.loadFrom i code).cfg = s.cfg := by
  induction code generalizing i s with
  | nil => exact ⟨rfl, rfl, rfl, rfl⟩
  | cons w rest ih => exact ih (s.loadWord (Address.ofLinear (i * 6)) w) (i + 1)

/-- An admitted image loads; the core's load is `loadFrom` on its quads. -/
theorem State.load_next {s t : State} {code : List RawWord} (h : s.load code = .next t) :
    imageWellFormed code = true ∧ t = s.loadFrom 0 (code.map RawWord.quads) := by
  unfold State.load at h
  split at h
  · split at h
    · cases h
      exact ⟨by simp_all [imageWellFormed], rfl⟩
    · cases h
  · cases h

end Sys2Proof.Machine
end

