-- ==== Sys2Proof/Tests/Slice0.lean ====
section
/-! SUPPORT. The model's own tests. Expected values come from spec/95_test_vectors.md and the encodings of spec/30_encoding.md;
each theorem names its section. The last part holds one witness for the hypotheses of each statement. -/

namespace Sys2Proof.Tests

open Sys2Proof.Machine

/-- A fresh machine with column 0 of both files set. -/
def machine (r0 r1 r2 r3 f0 f1 f2 f3 : Quad) : State :=
  { State.reset with
    reg := ⟨⟨r0, 0, 0, 0⟩, ⟨r1, 0, 0, 0⟩, ⟨r2, 0, 0, 0⟩, ⟨r3, 0, 0, 0⟩⟩
    flag := ⟨⟨f0, 0, 0, 0⟩, ⟨f1, 0, 0, 0⟩, ⟨f2, 0, 0, 0⟩, ⟨f3, 0, 0, 0⟩⟩ }

/-- The machine with a word at the pc and the pc at a linear address. -/
def placed (s : State) (pc : Nat) (w : InstrWord) : State :=
  { s with pc := Address.ofLinear pc }.loadWord (Address.ofLinear pc) w

/-- R0..R3, flags (0,0)..(3,0), the halt flag and the linear pc of a next state. -/
def seen (o : Host.Outcome State Fault Refusal) : Option (List Nat × List Nat × Nat × Nat) :=
  match o with
  | .next s => some ([s.reg.read 0 0, s.reg.read 1 0, s.reg.read 2 0, s.reg.read 3 0].map Fin.val,
      [s.flag.read 0 0, s.flag.read 1 0, s.flag.read 2 0, s.flag.read 3 0].map Fin.val, (s.flag.read 3 3).val, s.pc.linear)
  | .fault _ => none
  | .refused _ => none

/-- Whether the machine stopped because it is halted. -/
def haltedFault (o : Host.Outcome State Fault Refusal) : Bool :=
  match o with
  | .next _ => false
  | .fault .halted => true
  | .refused _ => false

/-! The checks of WellFormed.lean refuse ill-formed terms. -/

theorem test_raw_word_refuses_each_field :
    RawWord.wellFormed ⟨4, 0, 0, 0, 0, 0⟩ = false ∧ RawWord.wellFormed ⟨0, 4, 0, 0, 0, 0⟩ = false ∧
    RawWord.wellFormed ⟨0, 0, 4, 0, 0, 0⟩ = false ∧ RawWord.wellFormed ⟨0, 0, 0, 4, 0, 0⟩ = false ∧
    RawWord.wellFormed ⟨0, 0, 0, 0, 4, 0⟩ = false ∧ RawWord.wellFormed ⟨0, 0, 0, 0, 0, 4⟩ = false := by decide

theorem test_raw_word_accepts_bounds : RawWord.wellFormed ⟨3, 3, 3, 3, 3, 3⟩ = true := by decide

theorem test_image_of_eleven_words_does_not_fit : imageFits (List.replicate 11 ⟨0, 0, 0, 0, 0, 0⟩) = false := by decide

theorem test_image_of_ten_words_fits : imageWellFormed (List.replicate 10 ⟨0, 0, 0, 0, 0, 0⟩) = true := by decide

theorem test_image_refuses_bad_word : imageWellFormed [⟨0, 0, 0, 0, 0, 7⟩] = false := by decide

theorem test_assembler_form_refuses_each_layout :
    (Instr.add .immediate .register 0 0).assemblerForm = false ∧ (Instr.sub .register .flag 0 0).assemblerForm = false ∧
    (Instr.mul .reserved .register 0 0).assemblerForm = false ∧ (Instr.div .flag .register 0 0).assemblerForm = false ∧
    (Instr.min .register .immediate 0 0).assemblerForm = false ∧ (Instr.max .register .flag 0 0).assemblerForm = false ∧
    (Instr.mod .flag .register 0 0).assemblerForm = false ∧ (Instr.not .register .register 0 1).assemblerForm = false ∧
    (Instr.load .register .register 0 0).assemblerForm = false ∧
    (Instr.store .register .immediate 0 0).assemblerForm = false ∧
    (Instr.copy .immediate .register 0 0).assemblerForm = false ∧
    (Instr.call .register .register 0 0).assemblerForm = false ∧
    (Instr.jmp .register .register 0 0).assemblerForm = false ∧
    (Instr.jcmp .register .register 0 0).assemblerForm = false ∧
    (Instr.ret .register .register 0 0).assemblerForm = false := by decide

theorem test_decode_raw_rejects_by_name : decodeRaw ⟨0, 0, 0, 0, 0, 4⟩ = .error .outOfDomain := rfl

theorem test_assembler_rejects_by_name :
    assemble (.add 4 0) = .error .invalidOperand ∧ assemble (.load 1 4) = .error .outOfDomain := ⟨rfl, rfl⟩

/-! Decoding: one word of every instruction, written out from the opcode table R101 and the fields R91. -/

theorem test_decode_add : decode ⟨0, 0, 0, 0, 0, 1⟩ = .add .register .register 0 1 := rfl
theorem test_decode_sub : decode ⟨0, 1, 0, 0, 1, 0⟩ = .sub .register .register 1 0 := rfl
theorem test_decode_mul : decode ⟨0, 2, 0, 1, 3, 2⟩ = .mul .register .flag 3 2 := rfl
theorem test_decode_div : decode ⟨0, 3, 0, 0, 3, 1⟩ = .div .register .register 3 1 := rfl
theorem test_decode_min : decode ⟨1, 0, 0, 2, 3, 1⟩ = .min .register .immediate 3 1 := rfl
theorem test_decode_max : decode ⟨1, 1, 3, 2, 2, 1⟩ = .max .reserved .immediate 2 1 := rfl
theorem test_decode_mod : decode ⟨1, 2, 0, 0, 2, 1⟩ = .mod .register .register 2 1 := rfl
theorem test_decode_not : decode ⟨1, 3, 0, 0, 1, 0⟩ = .not .register .register 1 0 := rfl
theorem test_decode_load : decode ⟨2, 0, 0, 2, 1, 2⟩ = .load .register .immediate 1 2 := rfl
theorem test_decode_store : decode ⟨2, 1, 0, 0, 3, 0⟩ = .store .register .register 3 0 := rfl
theorem test_decode_copy : decode ⟨2, 2, 0, 0, 1, 2⟩ = .copy .register .register 1 2 := rfl
theorem test_decode_hlt : decode ⟨2, 3, 0, 0, 0, 0⟩ = .hlt := rfl
theorem test_decode_call : decode ⟨3, 0, 0, 0, 2, 1⟩ = .call .register .register 2 1 := rfl
theorem test_decode_jmp : decode ⟨3, 1, 0, 0, 1, 2⟩ = .jmp .register .register 1 2 := rfl
theorem test_decode_jcmp : decode ⟨3, 2, 1, 0, 0, 3⟩ = .jcmp .flag .register 0 3 := rfl
theorem test_decode_ret : decode ⟨3, 3, 0, 0, 3, 0⟩ = .ret .register .register 3 0 := rfl

/-- The four rows of spec/opcode_table.json that have `fixed` bits, with every field bit 0. -/
theorem test_table_rows :
    decodeTableWord 8 0b00000100 = some (.add .register .register 0 0) ∧
    decodeTableWord 8 0b01000100 = some (.sub .register .register 0 0) ∧
    decodeTableWord 8 0b10000100 = some (.min .register .register 0 0) ∧
    decodeTableWord 8 0b11000100 = some (.max .register .register 0 0) := by decide

/-- Two bits a quad, the first quad lowest: (2,0,0,2,1,2). -/
theorem test_table_word_of_quads : decodeTableWord 16 0b100110000010 = some (.load .register .immediate 1 2) := by decide

/-! The ALU tables of spec/95_test_vectors.md section 2: rows V1, columns V2, entries (flag, result). -/

/-- A unit's table, row by row. -/
def table (u : Unit2) : List (List (Nat × Nat)) :=
  [0, 1, 2, 3].map fun a : Quad => [0, 1, 2, 3].map fun b : Quad => ((u a b).1.val, (u a b).2.val)

theorem test_table_add : table halfAdder = [[(0, 0), (0, 1), (0, 2), (0, 3)], [(0, 1), (0, 2), (0, 3), (1, 0)],
    [(0, 2), (0, 3), (1, 0), (1, 1)], [(0, 3), (1, 0), (1, 1), (1, 2)]] := by decide
theorem test_table_sub : table halfSubtractor = [[(0, 0), (1, 3), (1, 2), (1, 1)], [(0, 1), (0, 0), (1, 3), (1, 2)],
    [(0, 2), (0, 1), (0, 0), (1, 3)], [(0, 3), (0, 2), (0, 1), (0, 0)]] := by decide
theorem test_table_mul : table halfMultiplier = [[(0, 0), (0, 0), (0, 0), (0, 0)], [(0, 0), (0, 1), (0, 2), (0, 3)],
    [(0, 0), (0, 2), (1, 0), (1, 2)], [(0, 0), (0, 3), (1, 2), (1, 1)]] := by decide
theorem test_table_div : table halfDivider = [[(0, 3), (0, 0), (0, 2), (0, 0)], [(1, 3), (0, 1), (1, 2), (0, 3)],
    [(2, 3), (0, 2), (0, 3), (1, 3)], [(3, 3), (0, 3), (1, 3), (2, 3)]] := by decide
theorem test_table_not : table notUnit = [[(0, 3), (0, 2), (0, 1), (0, 0)], [(0, 2), (0, 2), (0, 1), (0, 0)],
    [(0, 1), (0, 1), (0, 1), (0, 0)], [(0, 0), (0, 0), (0, 0), (0, 0)]] := by decide

/-! Blocks: spec/95_test_vectors.md sections 1.2 to 1.5 and 3.6. -/

theorem test_cell : cellRun 0 2 0 = (0, 0) ∧ cellRun 0 2 1 = (2, 2) ∧ cellRun 2 3 0 = (2, 2) ∧ cellRun 2 0 3 = (0, 0) := by
  decide

theorem test_decoders :
    [0, 1, 2, 3].map (decode4 2 3) = [0, 0, 3, 0] ∧ [0, 1, 2, 3].map (decode4 0 3) = [3, 0, 0, 0] ∧
    [0, 1, 2, 3].map (decode4 1 0) = [0, 0, 0, 0] ∧ [0, 1, 2, 3].map (decode4 3 2) = [0, 0, 0, 2] ∧
    decode16 2 1 3 2 1 = 3 := by decide

theorem test_memory_round_trip :
    Memory.run [] ⟨1, 2, 0⟩ 3 2 = (2, [(9, 2)]) ∧ (Memory.run [(9, 2)] ⟨1, 2, 0⟩ 0 0).1 = 2 ∧
    (Memory.run [(9, 2)] ⟨1, 2, 1⟩ 0 0).1 = 0 ∧ Memory.run [] ⟨0, 0, 0⟩ 0 3 = (0, []) := by decide

theorem test_memory_write_of_zero_removes_entry : Memory.write [(9, 2)] ⟨1, 2, 0⟩ 0 = [] := by decide

theorem test_register_file :
    (RegFile.zero.run 2 0 3 1).1 = 1 ∧ ((RegFile.zero.run 2 0 3 1).2.run 2 0 0 0).1 = 1 ∧
    ((RegFile.zero.run 2 0 3 1).2.run 0 2 0 0).1 = 0 := by decide

theorem test_counter_advance :
    Address.add ⟨3, 0, 0⟩ 1 0 0 = ⟨0, 1, 0⟩ ∧ Address.add ⟨3, 3, 0⟩ 1 0 0 = ⟨0, 0, 1⟩ ∧
    Address.add ⟨3, 3, 3⟩ 1 0 0 = ⟨0, 0, 0⟩ := by decide

/-- Section 3.6: a fetch from 60 wraps to 0 and 1. -/
theorem test_fetch_wraps :
    let f := State.fetch { State.reset with mem := [(0, 2)], pc := Address.ofLinear 60 }
    f.1 = ⟨0, 0, 0, 0, 2, 0⟩ ∧ f.2.pc.linear = 2 := by decide

/-- Section 3.6: HLT fetched from 62 and 63. -/
theorem test_fetch_hlt_at_62 :
    let f := State.fetch { State.reset with mem := [(62, 2), (63, 3)], pc := Address.ofLinear 62 }
    f.1 = ⟨2, 3, 0, 0, 0, 0⟩ ∧ f.2.pc.linear = 0 := by decide

/-- R98 with `fnClassLength` 2: a class-3 word is fetched as two quads and padded. -/
theorem test_fetch_class3_short :
    let f := State.fetch { State.reset with mem := [(0, 3), (1, 1), (4, 2)], cfg := ⟨0, .two⟩ }
    f.1 = ⟨3, 1, 0, 0, 0, 0⟩ ∧ f.2.pc.linear = 2 := by decide

/-! One step each: spec/95_test_vectors.md section 3. -/

theorem test_add_carries : seen (step (placed (machine 3 2 0 0 0 0 0 0) 0 ⟨0, 0, 0, 0, 0, 1⟩)) =
    some ([1, 2, 0, 0], [1, 0, 0, 0], 0, 6) := by decide
theorem test_add_reads_flag_operand : seen (step (placed (machine 0 0 0 0 0 1 0 0) 0 ⟨0, 0, 1, 2, 1, 2⟩)) =
    some ([0, 3, 0, 0], [0, 0, 0, 0], 0, 6) := by decide
theorem test_sub_borrows : seen (step (placed (machine 0 1 0 0 0 0 0 0) 0 ⟨0, 1, 0, 0, 0, 1⟩)) =
    some ([3, 1, 0, 0], [1, 0, 0, 0], 0, 6) := by decide
theorem test_mul_carries : seen (step (placed (machine 0 0 3 3 0 0 0 0) 0 ⟨0, 2, 0, 0, 3, 2⟩)) =
    some ([0, 0, 3, 1], [0, 0, 0, 1], 0, 6) := by decide
theorem test_div_by_zero : seen (step (placed (machine 0 2 0 0 0 0 0 0) 0 ⟨0, 3, 0, 0, 1, 0⟩)) =
    some ([0, 3, 0, 0], [0, 2, 0, 0], 0, 6) := by decide
theorem test_div_remainder : seen (step (placed (machine 3 3 0 0 0 0 0 0) 0 ⟨0, 3, 0, 0, 0, 1⟩)) =
    some ([3, 3, 0, 0], [2, 0, 0, 0], 0, 6) := by decide
theorem test_min_clears_flag : seen (step (placed (machine 0 1 0 2 0 0 0 1) 0 ⟨1, 0, 0, 0, 3, 1⟩)) =
    some ([0, 1, 0, 1], [0, 0, 0, 0], 0, 6) := by decide
theorem test_max : seen (step (placed (machine 1 0 3 0 0 0 0 0) 0 ⟨1, 1, 0, 0, 0, 2⟩)) =
    some ([3, 0, 3, 0], [0, 0, 0, 0], 0, 6) := by decide
theorem test_mod_no_carry : seen (step (placed (machine 0 3 3 0 0 0 0 0) 0 ⟨1, 2, 0, 0, 1, 2⟩)) =
    some ([0, 2, 3, 0], [0, 0, 0, 0], 0, 6) := by decide
theorem test_not_reads_r0 : seen (step (placed (machine 3 0 1 0 0 0 0 0) 0 ⟨1, 3, 0, 0, 2, 0⟩)) =
    some ([3, 0, 0, 0], [0, 0, 0, 0], 0, 6) := by decide
theorem test_load_flag : seen (step (placed (machine 0 0 0 0 0 1 0 0) 0 ⟨2, 0, 0, 1, 3, 1⟩)) =
    some ([0, 0, 0, 1], [0, 1, 0, 0], 0, 6) := by decide
theorem test_store : seen (step (placed (machine 1 0 0 0 0 0 0 0) 0 ⟨2, 1, 0, 0, 3, 0⟩)) =
    some ([1, 0, 0, 1], [0, 0, 0, 0], 0, 6) := by decide
theorem test_copy_flag_row_is_source : seen (step (placed (machine 0 1 0 0 0 1 0 0) 0 ⟨2, 2, 0, 0, 1, 2⟩)) =
    some ([0, 1, 1, 0], [0, 0, 0, 0], 0, 6) := by decide
theorem test_hlt_ignores_padding : seen (step (placed (machine 2 0 0 0 1 0 0 0) 18 ⟨2, 3, 1, 1, 1, 1⟩)) =
    some ([2, 0, 0, 0], [0, 0, 0, 0], 3, 20) := by decide
theorem test_call : seen (step (placed (machine 0 0 0 0 0 0 1 0) 0 ⟨3, 0, 0, 0, 2, 1⟩)) =
    some ([0, 0, 0, 0], [0, 0, 0, 0], 0, 6) := by decide
theorem test_jmp_does_not_jump : seen (step (placed (machine 0 0 0 0 0 1 0 0) 12 ⟨3, 1, 0, 0, 1, 2⟩)) =
    some ([0, 0, 0, 0], [0, 0, 0, 0], 0, 18) := by decide
theorem test_jcmp : seen (step (placed (machine 0 0 0 0 1 0 0 0) 0 ⟨3, 2, 0, 0, 0, 0⟩)) =
    some ([0, 0, 0, 0], [0, 0, 0, 0], 0, 6) := by decide
theorem test_ret_is_six_quads : seen (step (placed (machine 0 0 0 2 0 0 0 1) 0 ⟨3, 3, 0, 0, 3, 0⟩)) =
    some ([0, 0, 0, 2], [0, 0, 0, 0], 0, 6) := by decide

/-- RNF = 3 gives 0 at the spec's default (section 4, P5 step 4), and the parameter's value otherwise. -/
theorem test_rnf3_default : seen (step (placed (machine 0 3 0 0 0 0 0 0) 0 ⟨1, 1, 3, 2, 2, 1⟩)) =
    some ([0, 3, 1, 0], [0, 0, 0, 0], 0, 6) := by decide
theorem test_rnf3_parameter :
    State.resolve { State.reset with cfg := ⟨2, .six⟩ } .reserved 1 = 2 := by decide

/-- Section 1.8: a halted machine has no step. -/
theorem test_halted_has_no_step :
    haltedFault (step { State.reset with flag := RegFile.zero.write 3 3 3 }) = true := by decide

/-- `withFetchWord` puts the instruction where the next step fetches it. -/
theorem test_with_fetch_word : seen (step (State.reset.withFetchWord 16 0b100110000010)) =
    some ([0, 2, 0, 0], [0, 0, 0, 0], 0, 6) := by decide

/-- R75: both refusals of the loader. -/
theorem test_load_refuses :
    State.reset.load (List.replicate 11 ⟨0, 0, 0, 0, 0, 0⟩) = .refused .imageTooLong ∧
    State.reset.load [⟨0, 0, 0, 0, 5, 0⟩] = .refused .outOfDomain := ⟨rfl, rfl⟩

/-! The host's moves (spec/60_exceptions.md R244). -/

/-- HLT loaded and stepped: a load is then refused, a step answers HALTED, and what is observed is the halted machine. -/
theorem test_host_loads_steps_and_observes :
    let fresh := Session.construct Config.specDefault
    let loaded := fresh.move (.load [⟨2, 3, 0, 0, 0, 0⟩])
    let ran := loaded.1.move .step
    loaded.2 = .loaded ∧ ran.2 = .ran ∧ ran.1.move .step = (ran.1, .halted) ∧
    ran.1.move (.load [⟨0, 0, 0, 0, 0, 0⟩]) = (ran.1, .refused .loadDuringRun) ∧
    ran.1.core.observation.flags = [[0, 0, 0, 0], [0, 0, 0, 0], [0, 0, 0, 0], [0, 0, 0, 3]] ∧
    ran.1.core.observation.mem.take 2 = [2, 3] := by decide

/-! Witnesses: for each statement with hypotheses, states and operands that meet them, at boundary values where a clause has a
range. -/

/-- A running machine with registers, flags, memory and both parameters away from their reset values. -/
def busy : State :=
  { machine 3 2 1 0 1 0 2 3 with mem := [(2, 2), (60, 1), (63, 3)], pc := ⟨3, 3, 3⟩, cfg := ⟨2, .two⟩ }

/-- The same machine halted. -/
def stopped : State := { busy with flag := busy.flag.write 3 3 3 }

theorem witness_StorageCellStoresOnPositiveEnable : 0 < (1 : Quad).val ∧ 0 < (3 : Quad).val := by decide

theorem witness_RegisterFileRoundTrip : ((3, 3) : Quad × Quad) ≠ (3, 0) ∧ (1 : Quad) ≠ 0 := by decide

theorem witness_MemoryRoundTrip :
    Memory.wf busy.mem = true ∧ (1 : Quad) ≠ 0 ∧ (⟨0, 0, 0⟩ : Address) ≠ ⟨3, 3, 3⟩ := by decide

theorem witness_MemoryHierarchyRefinesList :
    let l : MemL3 := (memTreeRun (Four.ofFn fun _ => Four.ofFn fun _ => Four.ofFn fun _ => 0) ⟨3, 3, 3⟩ 3 2).2
    Memory.wf [(63, 2)] = true ∧ ∀ b : Address, memTreeCell l b = Memory.read [(63, 2)] b := by
  refine ⟨by decide, ?_⟩
  rintro ⟨low, mid, high⟩
  revert low mid high
  decide

theorem witness_CanonicalMemoryIsUnique :
    Memory.wf busy.mem = true ∧ ∀ n, Memory.readAt busy.mem n = Memory.readAt busy.mem n := ⟨by decide, fun _ => rfl⟩

theorem witness_AddressDigitsAreLinearAddresses : 63 < 64 ∧ 0 < 64 := by decide

theorem witness_OperandResolutionByKind :
    ((⟨3, 3, 3, 3, 3, 3⟩ : InstrWord).cls ≠ 2 ∨ (⟨3, 3, 3, 3, 3, 3⟩ : InstrWord).subop ≠ 3) ∧
    decode ⟨3, 3, 3, 3, 3, 3⟩ = .ret .reserved .reserved 3 3 := by decide

/-- Both lengths occur: six quads from 59 on, two from 62 on, and two for class 3 where the parameter says so. -/
theorem witness_FetchReadsSuccessiveQuads :
    (fetchLength Config.specDefault 0 0 = 6 ∧ fetchLength Config.specDefault 2 3 = 2 ∧ fetchLength busy.cfg 3 0 = 2) ∧
    (let s := placed State.reset 59 ⟨3, 3, 3, 3, 3, 3⟩; fetchLength s.cfg (s.quadAhead 0) (s.quadAhead 1) = 6) ∧
    (let s := placed State.reset 62 ⟨2, 3, 1, 1, 1, 1⟩; fetchLength s.cfg (s.quadAhead 0) (s.quadAhead 1) = 2) := by decide

theorem witness_PaddingIsNotRead :
    let s := placed State.reset 18 ⟨2, 3, 1, 1, 1, 1⟩
    let t := placed State.reset 18 ⟨2, 3, 0, 2, 0, 2⟩
    s.cfg = t.cfg ∧ s.quadAhead 0 = t.quadAhead 0 ∧ s.quadAhead 1 = t.quadAhead 1 ∧
    fetchLength s.cfg (s.quadAhead 0) (s.quadAhead 1) = 2 := by decide

/-- Six quads across the wrap at 63, and the two kinds of two-quad word. -/
theorem witness_StepRunsDecodedInstruction :
    (let i := Instr.add .flag .immediate 2 3
     let s := placed State.reset 63 (encode i)
     s.halted = false ∧ fetchLength s.cfg (encode i).cls (encode i).subop = 6 ∧ s.quadAhead 0 = (encode i).cls ∧
     s.quadAhead 1 = (encode i).subop ∧ s.quadAhead 2 = (encode i).rnf0 ∧ s.quadAhead 3 = (encode i).rnf1 ∧
     s.quadAhead 4 = (encode i).a ∧ s.quadAhead 5 = (encode i).b) ∧
    (let s := placed State.reset 62 ⟨2, 3, 1, 1, 1, 1⟩
     s.halted = false ∧ fetchLength s.cfg (encode .hlt).cls (encode .hlt).subop = 2 ∧
     s.quadAhead 0 = (encode .hlt).cls ∧ s.quadAhead 1 = (encode .hlt).subop ∧ (encode .hlt).rnf0 = 0 ∧
     (encode .hlt).rnf1 = 0 ∧ (encode .hlt).a = 0 ∧ (encode .hlt).b = 0) ∧
    (let i := Instr.ret .register .register 0 0
     let s := placed { State.reset with cfg := ⟨0, .two⟩ } 0 (encode i)
     s.halted = false ∧ fetchLength s.cfg (encode i).cls (encode i).subop = 2 ∧ s.quadAhead 0 = (encode i).cls ∧
     s.quadAhead 1 = (encode i).subop ∧ (encode i).rnf0 = 0 ∧ (encode i).rnf1 = 0 ∧ (encode i).a = 0 ∧
     (encode i).b = 0) := by decide

theorem witness_HaltedMachineHasNoStep : stopped.flag.read 3 3 ≠ 0 := by decide

theorem witness_EveryRunningMachineSteps : busy.halted = false := by decide

theorem witness_OnlyHltWritesHaltFlag :
    (∃ t, exec .hlt busy = .next t) ∧ (∃ t, exec (.add .register .flag 3 3) busy = .next t) ∧
    stopped.halted = true := ⟨⟨_, rfl⟩, ⟨_, rfl⟩, by decide⟩

theorem witness_CounterMovesOnlyByFetch :
    (∃ t, exec (.jmp .immediate .immediate 3 3) busy = .next t) ∧ ∃ t, step busy = .next t := ⟨⟨_, rfl⟩, ⟨_, rfl⟩⟩

theorem witness_RunsNeverWriteMemory : (∃ t, runSteps 0 busy = .next t) ∧ ∃ t, runSteps 1 busy = .next t :=
  ⟨⟨_, rfl⟩, ⟨_, rfl⟩⟩

theorem busy_inv : busy.Inv := ⟨by decide, by decide, by decide, .inl (by decide)⟩

theorem stopped_inv : stopped.Inv := ⟨by decide, by decide, by decide, .inr (by decide)⟩

theorem witness_StepKeepsMachineInvariant : busy.Inv ∧ ∃ t, step busy = .next t := ⟨busy_inv, ⟨_, rfl⟩⟩

theorem witness_EveryRunIsSafe : busy.Inv ∧ stopped.Inv := ⟨busy_inv, stopped_inv⟩

/-- Two machines that differ in a register cell and a flag cell no instruction reaches. -/
theorem witness_UnreachedCellsNeverMatter :
    AgreeOnReached busy { busy with reg := busy.reg.write 0 1 3, flag := busy.flag.write 3 2 1 } ∧
    busy ≠ { busy with reg := busy.reg.write 0 1 3, flag := busy.flag.write 3 2 1 } ∧ (∃ t, step busy = .next t) :=
  ⟨⟨rfl, rfl, rfl, by decide, by decide, by decide⟩, by decide, ⟨_, rfl⟩⟩

theorem witness_ExecIsExecuteOfWord : busy.halted = false := by decide

/-- A run of one step from zero cells, which executes no HLT. -/
theorem witness_RunWithoutHltGoesOn :
    State.reset.halted = false ∧
    ∀ (j : Nat) (t : State), j < 1 → runSteps j State.reset = .next t → decode t.fetch.1 ≠ .hlt := by
  refine ⟨by decide, ?_⟩
  intro j t hj h
  obtain rfl : j = 0 := by omega
  cases h
  decide

/-- Six zero cells across the wrap at 63. -/
theorem witness_ZeroCellsRunAsAdd :
    let s : State := { machine 3 0 0 0 0 0 0 0 with mem := [(3, 1)], pc := ⟨1, 3, 3⟩ }
    s.halted = false ∧ ∀ n : Nat, n < 6 → s.quadAhead n = 0 := by decide

/-- An image of ten words, the longest that fits. -/
theorem witness_LoadPlacesImage :
    Memory.wf busy.mem = true ∧ imageWellFormed (List.replicate 10 ⟨3, 3, 3, 3, 3, 3⟩) = true ∧
    9 < (List.replicate 10 (⟨3, 3, 3, 3, 3, 3⟩ : RawWord)).length := by decide

/-- Ten words, the last of which holds a 4. -/
def imageWithFour : List RawWord := List.replicate 9 ⟨3, 3, 3, 3, 3, 3⟩ ++ [⟨0, 0, 0, 0, 0, 4⟩]

/-- Eleven words of quads, and an image with a 4. -/
theorem witness_BadImageIsRefused :
    64 < 6 * (List.replicate 11 (⟨3, 3, 3, 3, 3, 3⟩ : RawWord)).length ∧
    (List.replicate 11 (⟨3, 3, 3, 3, 3, 3⟩ : RawWord)).all RawWord.wellFormed = true ∧
    6 * imageWithFour.length ≤ 64 ∧
    ∃ w ∈ imageWithFour, 4 ≤ w.cls ∨ 4 ≤ w.subop ∨ 4 ≤ w.rnf0 ∨ 4 ≤ w.rnf1 ∨ 4 ≤ w.a ∨ 4 ≤ w.b := by decide

theorem witness_HostLoadsOnlyBeforeFirstStep :
    Session.started ⟨busy, true⟩ = true ∧ HostMove.load imageWithFour ≠ .step ∧ HostMove.observe ≠ .step := by decide

/-- A session before its first step, with canonical memory, an image of the longest length and one with a 4, a running and a
halted core. -/
theorem witness_HostMovesAnswer :
    Session.started ⟨busy, false⟩ = false ∧ Memory.wf (Session.core ⟨busy, false⟩).mem = true ∧
    (Session.construct Config.specDefault).started = false ∧
    imageWellFormed (List.replicate 10 ⟨3, 3, 3, 3, 3, 3⟩) = true ∧ imageWellFormed imageWithFour = false ∧
    busy.halted = false ∧ stopped.halted = true := by decide

theorem witness_EverySessionKeepsInvariant :
    Session.core ⟨busy, false⟩ = busy ∧ State.Inv (Session.core ⟨busy, false⟩) := ⟨rfl, busy_inv⟩

/-- The hypothesis of the statements about ADD, SUB, MUL, DIV, MIN, MAX, MOD, NOT, LOAD, STORE, COPY and the function class, and
of HltSetsHaltFlag's clause about `exec`; each of them takes any operand kinds and fields. -/
theorem witness_InstructionStatements : busy.halted = false ∧ State.reset.halted = false := by decide

theorem witness_HltSetsHaltFlag :
    let s := placed State.reset 63 ⟨2, 3, 1, 1, 1, 1⟩
    s.halted = false ∧ s.quadAhead 0 = 2 ∧ s.quadAhead 1 = 3 := by decide

end Sys2Proof.Tests
end

section
/-! The six primitives as integer functions of their operands (spec/00_scope.md R15 to R20): one rule per primitive. -/

namespace Sys2Proof.Machine

/-- The reduction modulo 4 behind `qnot`, `qcom` and `qmod` (R12). -/
theorem quadOfNat_val (n : Nat) : (quadOfNat n).val = n % 4 := rfl

@[simp] theorem qmin_val (a b : Quad) : (qmin a b).val = min a.val b.val :=
  apply_ite Fin.val _ a b

@[simp] theorem qmax_val (a b : Quad) : (qmax a b).val = max a.val b.val :=
  apply_ite Fin.val _ b a

/-- No reduction happens: `3 - a` is a quad already (R17). -/
@[simp] theorem qnot_val (a : Quad) : (qnot a).val = 3 - a.val := by
  have hlt : 3 - a.val < 4 := by omega
  rw [qnot, quadOfNat_val, Nat.mod_eq_of_lt hlt]

/-- No reduction happens: a truncated difference is at most its first operand (R18). -/
@[simp] theorem qcom_val (a b : Quad) : (qcom a b).val = a.val - b.val := by
  have hlt : a.val - b.val < 4 := by omega
  rw [qcom, quadOfNat_val, Nat.mod_eq_of_lt hlt]

@[simp] theorem qmod_val (a b : Quad) : (qmod a b).val = (a.val + b.val) % 4 := rfl

/-- The spec's own wording of `COM`: the difference where `a > b`, else 0 (R18). -/
theorem qcom_val_eq_ite (a b : Quad) : (qcom a b).val = if b.val < a.val then a.val - b.val else 0 := by
  rw [qcom_val]
  split
  case isTrue => rfl
  case isFalse hle => exact Nat.sub_eq_zero_of_le (Nat.le_of_not_lt hle)

/-- 3 is the greatest quad, so `MIN` with it passes the other operand. -/
@[simp] theorem qmin_three_left (v : Quad) : qmin 3 v = v :=
  Fin.ext ((qmin_val 3 v).trans (Nat.min_eq_right (Nat.le_of_lt_succ v.isLt)))

/-- 0 is the least quad, so `MIN` with it masks the other operand. -/
@[simp] theorem qmin_zero_left (v : Quad) : qmin 0 v = 0 :=
  Fin.ext ((qmin_val 0 v).trans (Nat.zero_min v.val))

/-- `EQ` as a mask: `MIN(EQ(a, b), v)` passes `v` where the operands are equal (R20). -/
theorem qmin_qeq (a b v : Quad) : qmin (qeq a b) v = if a = b then v else 0 := by
  unfold qeq
  split
  case isTrue => exact qmin_three_left v
  case isFalse => exact qmin_zero_left v

/-- Settles O1: one rule per primitive, and the mask rule of `EQ`. -/
theorem primitivesAreIntegerFunctions : Obligations.PrimitivesAreIntegerFunctions := fun a b =>
  ⟨qmin_val a b, qmax_val a b, qnot_val a, qcom_val_eq_ite a b, qmod_val a b, rfl, qmin_qeq a b⟩

end Sys2Proof.Machine
end

section
/-! The storage cell and the register file built of sixteen of them (spec/10_state.md R31, R33, R37): what each operation
answers and what it leaves as before. -/

namespace Sys2Proof.Machine

@[simp] theorem cellRun_disabled (state v : Quad) : cellRun state v 0 = (state, state) := rfl

theorem cellRun_enabled (state v : Quad) {e : Quad} (he : 0 < e.val) : cellRun state v e = (v, v) :=
  if_pos he

/-- Settles O2: the cell's two cases, and the second followed by the first. -/
theorem storageCellStoresOnPositiveEnable : Obligations.StorageCellStoresOnPositiveEnable := fun state v e w =>
  ⟨cellRun_disabled state v, cellRun_enabled state v, fun he => by rw [cellRun_enabled state v he, cellRun_disabled]⟩

/-- Whatever the enable, running one cell leaves every other cell as before (R37). -/
theorem RegFile.read_run_other (f : RegFile) {row col row' col' : Quad} (e v : Quad) (h : (row', col') ≠ (row, col)) :
    (f.run row col e v).2.read row' col' = f.read row' col' := by
  by_cases he : e = 0
  · rw [he, RegFile.run_disabled]
  · rw [RegFile.run_enabled f row col v he, RegFile.read_write_other f h]

/-- A run with enable 0 after a write answers the written value, whatever its own value argument (R37). -/
theorem RegFile.run_run_same (f : RegFile) (row col v w : Quad) {e : Quad} (he : e ≠ 0) :
    ((f.run row col e v).2.run row col 0 w).1 = v := by
  rw [RegFile.run_enabled f row col v he, RegFile.run_disabled, RegFile.read_write_same]

theorem Four.get_const {α : Type} (x : α) (i : Quad) : (Four.mk x x x x).get i = x := by
  fin_cases i <;> rfl

/-- Every cell of a fresh file holds 0 (R30). -/
@[simp] theorem RegFile.read_zero (row col : Quad) : RegFile.zero.read row col = 0 := by
  rw [RegFile.read, RegFile.zero, Four.get_const, Four.get_const]

theorem RegFile.run_zero_disabled (row col v : Quad) : (RegFile.zero.run row col 0 v).1 = 0 :=
  RegFile.read_zero row col

/-- Settles O6: the rules of `RegFile.run`, for a fresh machine those of the fresh file; the two files are two fields. -/
theorem registerFileRoundTrip : Obligations.RegisterFileRoundTrip :=
  ⟨fun f row col _ _ e v w => ⟨RegFile.read_run_other f e v, RegFile.run_run_same f row col v w⟩,
   fun row col v => ⟨RegFile.run_zero_disabled row col v, RegFile.run_zero_disabled row col v⟩,
   fun s x row col v => ⟨s.writeReg_flag x v, s.writeFlag_reg row col v⟩⟩

end Sys2Proof.Machine
end

section
/-! The halt flag (spec/10_state.md R40): flag (3,3) lies outside column 0, which is all that the condition flag of an
instruction writes and all that an operand reads. -/

namespace Sys2Proof.Machine

/-- The halted condition is the halt flag (spec/40_execution.md R121). -/
theorem State.halted_iff (s : State) : s.halted = true ↔ s.flag.read 3 3 ≠ 0 := by
  rw [State.halted_eq, bne_iff_ne]

/-- The condition flag of an instruction never is the halt flag. -/
theorem State.writeCondFlag_haltFlag (s : State) (x f : Quad) :
    (s.writeCondFlag x f).flag.read 3 3 = s.flag.read 3 3 :=
  RegFile.read_write_other s.flag (by simp)

/-- A flag outside column 0 is no operand (spec/30_encoding.md R94). -/
theorem State.resolve_writeFlag (s : State) (row v : Quad) {col : Quad} (hcol : col ≠ 0) (k : OperandKind) (x : Quad) :
    (s.writeFlag row col v).resolve k x = s.resolve k x := by
  have hflag : ∀ row', (s.writeFlag row col v).flag.read row' 0 = s.flag.read row' 0 := fun row' =>
    RegFile.read_write_other s.flag (by simp [hcol.symm])
  exact State.resolve_congr (s := s.writeFlag row col v) (t := s) (fun _ => rfl) hflag rfl k x

/-- HLT, where it answers, leaves the halt flag at 3 (spec/43_code.md R194). -/
theorem exec_hlt_haltFlag {s t : State} (h : exec .hlt s = .next t) : t.flag.read 3 3 = 3 := by
  obtain ⟨_, rfl⟩ := State.unlessHalted_next.mp h
  exact RegFile.read_write_same _ 3 3 3

/-- Every other instruction leaves the halt flag: its one flag write is the condition flag. -/
theorem exec_haltFlag_of_ne_hlt {i : Instr} {s t : State} (h : exec i s = .next t) (hi : i ≠ .hlt) :
    t.flag.read 3 3 = s.flag.read 3 3 := by
  obtain ⟨_, ⟨x, f, _, _, rfl⟩ | ⟨hhlt, _⟩ | ⟨x, rfl⟩⟩ := exec_next_cases h
  · exact s.writeCondFlag_haltFlag x f
  · exact absurd hhlt hi
  · exact s.writeCondFlag_haltFlag x noFlag

/-- Settles O25: HLT's own rule and that of every other instruction; the halt flag is no operand and is the halted
condition. -/
theorem onlyHltWritesHaltFlag : Obligations.OnlyHltWritesHaltFlag :=
  ⟨fun _ _ _ h => ⟨fun hi => exec_hlt_haltFlag (hi ▸ h), exec_haltFlag_of_ne_hlt h⟩,
   fun s k x v => s.resolve_writeFlag 3 v (by decide) k x,
   State.halted_iff⟩

end Sys2Proof.Machine
end

section
/-! The program counter (spec/10_state.md R45): FETCH moves it and EXECUTE leaves it. -/

namespace Sys2Proof.Machine

/-- No instruction writes the pc: there are no jumps. -/
theorem exec_next_pc {i : Instr} {s t : State} (h : exec i s = .next t) : t.pc = s.pc := by
  obtain ⟨_, ⟨_, _, _, _, rfl⟩ | ⟨_, rfl⟩ | ⟨_, rfl⟩⟩ := exec_next_cases h <;> rfl

/-- FETCH advances the pc once per quad fetched (spec/40_execution.md R123). -/
theorem State.fetch_pc (s : State) :
    s.fetch.2.pc = s.pc.advance (fetchLength s.cfg (s.quadAhead 0) (s.quadAhead 1)) := by
  rw [State.fetch_state, ← s.read_advance 0, ← s.read_advance 1, Address.advance_zero]

theorem State.fetch_pc_linear (s : State) :
    s.fetch.2.pc.linear = (s.pc.linear + fetchLength s.cfg (s.quadAhead 0) (s.quadAhead 1)) % 64 := by
  rw [State.fetch_pc, Address.linear_advance]

/-- The pc after a step is the one FETCH left. -/
theorem step_next_pc {s t : State} (h : step s = .next t) : t.pc = s.fetch.2.pc :=
  exec_next_pc (step_next_inv h).2

/-- Settles O26: an instruction leaves the pc, so that a step moves it as FETCH does. -/
theorem counterMovesOnlyByFetch : Obligations.CounterMovesOnlyByFetch :=
  ⟨fun _ _ _ => exec_next_pc, fun s t h => by
    have hpc : t.pc = s.fetch.2.pc := step_next_pc h
    exact ⟨hpc, hpc ▸ s.fetch_pc_linear⟩⟩

end Sys2Proof.Machine
end

section
/-! The one-hot decoders, their cascades, and the reduction that picks the selected output (spec/20_memory.md R60 to R65). -/

namespace Sys2Proof.Machine

/-- The addressed line carries the enable and every other line 0 (R60, R61). -/
theorem decode4_eq_ite (addr enable i : Quad) : decode4 addr enable i = if i = addr then enable else 0 :=
  qmin_qeq i addr enable

theorem decode4_self (addr enable : Quad) : decode4 addr enable addr = enable := by
  rw [decode4_eq_ite, if_pos rfl]

/-- Two cascaded decoders: the second one's enable is a line of the first (R62). -/
theorem decode4_decode4 (addr0 addr1 enable j k : Quad) :
    decode4 addr1 (decode4 addr0 enable j) k = if j = addr0 ∧ k = addr1 then enable else 0 := by
  simp only [decode4_eq_ite, and_comm (a := j = addr0), ite_and]

/-- Settles O3: the rule of `decode4`, alone and cascaded once. -/
theorem decodersSelectOneLine : Obligations.DecodersSelectOneLine :=
  ⟨fun _ _ _ => rfl, decode4_eq_ite, fun addr0 addr1 enable j k => ⟨rfl, decode4_decode4 addr0 addr1 enable j k⟩⟩

theorem Address.eq_iff (a b : Address) : b = a ↔ b.low = a.low ∧ b.mid = a.mid ∧ b.high = a.high := by
  cases a
  cases b
  rw [Address.mk.injEq]

/-- The cascade of the three digits enables the leaf that the address names and no other (R66). -/
theorem decode4_cascade (a b : Address) (enable : Quad) :
    decode4 a.low (decode4 a.mid (decode4 a.high enable b.high) b.mid) b.low = if b = a then enable else 0 := by
  simp only [decode4_eq_ite, Address.eq_iff, ite_and]

@[simp] theorem qmax_zero_left (v : Quad) : qmax 0 v = v :=
  Fin.ext ((qmax_val 0 v).trans (Nat.zero_max v.val))

@[simp] theorem qmax_zero_right (v : Quad) : qmax v 0 = v :=
  Fin.ext ((qmax_val v 0).trans (Nat.max_zero v.val))

/-- Four candidates of which at most one is not 0 reduce to that one. -/
theorem reduce4_of_single {x : Quad → Quad} (d : Quad) (h : ∀ i, i ≠ d → x i = 0) : reduce4 x = x d := by
  fin_cases d <;> simp [reduce4, h]

/-- Masking with `EQ` and reducing selects the candidate the digit names (R65). -/
theorem reduce4_qmin_qeq (d : Quad) (x : Quad → Quad) : (reduce4 fun i => qmin (qeq d i) (x i)) = x d := by
  rw [reduce4_of_single d fun i hi => by rw [qmin_qeq, if_neg hi.symm], qmin_qeq, if_pos rfl]

end Sys2Proof.Machine
end

section
/-! Memory's one operation, on the list that State holds and on the three-level hierarchy (spec/20_memory.md R64 to R66):
both are one access to the addressed cell. -/

namespace Sys2Proof.Machine

/-- A read after a write at a digit triple. -/
theorem Memory.read_write {m : Memory} (hm : Memory.wf m = true) (a b : Address) (v : Quad) :
    Memory.read (Memory.write m a v) b = if b = a then v else Memory.read m b := by
  have hlinear : b.linear = a.linear ↔ b = a := ⟨Address.linear_injective, congrArg Address.linear⟩
  simp only [Memory.read, Memory.readAt_write hm, hlinear]

/-- The answer of an access: the value on a write, the addressed cell on a read. -/
theorem Memory.run_fst {m : Memory} (hm : Memory.wf m = true) (a : Address) (enable v : Quad) :
    (Memory.run m a enable v).1 = if enable = 0 then Memory.read m a else v := by
  split
  case isTrue h => rw [h, Memory.run_disabled]
  case isFalse h => rw [Memory.run_enabled m a v h, Memory.read_write hm, if_pos rfl]

/-- Memory after an access: the addressed cell changes, and only on a write. -/
theorem Memory.read_run {m : Memory} (hm : Memory.wf m = true) (a b : Address) (enable v : Quad) :
    Memory.read (Memory.run m a enable v).2 b = if enable ≠ 0 ∧ b = a then v else Memory.read m b := by
  by_cases h : enable = 0
  · rw [h, Memory.run_disabled, if_neg (fun hwrite => hwrite.1 rfl)]
  · rw [Memory.run_enabled m a v h, Memory.read_write hm]
    simp only [ne_eq, h, not_false_eq_true, true_and]

/-- Settles O7: the cascade of decoders, and the two rules of `Memory.run`. -/
theorem memoryRoundTrip : Obligations.MemoryRoundTrip := by
  refine ⟨fun a enable i j k => decode4_cascade a ⟨i, j, k⟩ enable, fun _ => rfl, fun m a b e v w hm => ⟨?_, ?_, rfl⟩⟩
  · intro he
    rw [Memory.run_disabled, Memory.read_run hm, if_pos ⟨he, rfl⟩]
  · intro hb
    rw [Memory.read_run hm, if_neg (fun hwrite => hb hwrite.2)]

theorem Four.get_ofFn {α : Type} (x : Quad → α) (i : Quad) : (Four.ofFn x).get i = x i := by
  fin_cases i <;> rfl

/-- A level answers what the addressed child answers to the level's own enable (R65). -/
theorem levelRun_fst {α : Type} (child : α → Quad → Quad × α) (level : Four α) (digit enable : Quad) :
    (levelRun child level digit enable).1 = (child (level.get digit) enable).1 := by
  simp only [levelRun, reduce4_qmin_qeq, decode4_self]

/-- A level runs each child with the enable of that child's line (R65). -/
theorem levelRun_get {α : Type} (child : α → Quad → Quad × α) (level : Four α) (digit enable i : Quad) :
    (levelRun child level digit enable).2.get i = (child (level.get i) (decode4 digit enable i)).2 :=
  Four.get_ofFn _ i

/-- The hierarchy answers what the addressed cell answers. -/
theorem memTreeRun_fst (l : MemL3) (a : Address) (enable v : Quad) :
    (memTreeRun l a enable v).1 = (cellRun (memTreeCell l a) v enable).1 := by
  rw [memTreeRun, levelRun_fst, l2Run, levelRun_fst, l1Run, levelRun_fst, memTreeCell]

/-- The hierarchy runs every cell, the addressed one with the enable and every other with 0. -/
theorem memTreeCell_memTreeRun (l : MemL3) (a b : Address) (enable v : Quad) :
    memTreeCell (memTreeRun l a enable v).2 b =
      (cellRun (memTreeCell l b) v (if b = a then enable else 0)).2 := by
  rw [memTreeCell, memTreeRun, levelRun_get, l2Run, levelRun_get, l1Run, levelRun_get, decode4_cascade, memTreeCell]

/-- A cell's answer is its state after the access, and both follow the enable (spec/10_state.md R31). -/
theorem cellRun_eq (state v e : Quad) :
    cellRun state v e = (if e = 0 then state else v, if e = 0 then state else v) := by
  split
  case isTrue h => rw [h, cellRun_disabled]
  case isFalse h => exact cellRun_enabled state v (Fin.pos_iff_ne_zero.mpr h)

/-- The hierarchy is one cell access: its answer. -/
theorem memTreeRun_answer (l : MemL3) (a : Address) (enable v : Quad) :
    (memTreeRun l a enable v).1 = if enable = 0 then memTreeCell l a else v := by
  rw [memTreeRun_fst, cellRun_eq]

/-- The hierarchy is one cell access: its cells after it. -/
theorem memTreeRun_cells (l : MemL3) (a b : Address) (enable v : Quad) :
    memTreeCell (memTreeRun l a enable v).2 b = if enable ≠ 0 ∧ b = a then v else memTreeCell l b := by
  rw [memTreeCell_memTreeRun, cellRun_eq]
  by_cases h : b = a <;> simp [h]

/-- Settles O8: hierarchy and list obey the same two rules of one access. -/
theorem memoryHierarchyRefinesList : Obligations.MemoryHierarchyRefinesList :=
  ⟨fun l a b enable v => ⟨memTreeRun_answer l a enable v, memTreeRun_cells l a b enable v⟩,
   fun l m a enable v hm hagree =>
    ⟨by rw [memTreeRun_answer, Memory.run_fst hm, hagree],
     fun b => by rw [memTreeRun_cells, Memory.read_run hm, hagree],
     Memory.wf_run a enable v hm⟩⟩

end Sys2Proof.Machine
end

section
/-! The load of an image (spec/20_memory.md R68, R74, R75): where its words stand afterwards, and which cells it leaves. -/

namespace Sys2Proof

theorem RawWord.wellFormed_iff (w : RawWord) :
    w.wellFormed = true ↔ w.cls < 4 ∧ w.subop < 4 ∧ w.rnf0 < 4 ∧ w.rnf1 < 4 ∧ w.a < 4 ∧ w.b < 4 := by
  simp only [RawWord.wellFormed, Bool.and_eq_true, decide_eq_true_eq, and_assoc]

/-- The two checks of an image (R75). -/
theorem imageWellFormed_iff (code : List RawWord) :
    imageWellFormed code = true ↔ 6 * code.length ≤ 64 ∧ ∀ w ∈ code, w.wellFormed = true := by
  simp only [imageWellFormed, imageFits, Bool.and_eq_true, decide_eq_true_eq, List.all_eq_true]

end Sys2Proof

namespace Sys2Proof.Machine

/-- Linear address and digits, from the linear side (R63). -/
theorem Address.linear_ofLinear {n : Nat} (hn : n < 64) : (Address.ofLinear n).linear = n := by
  simp only [Address.linear, Address.ofLinear, quadOfNat_val]
  omega

/-- The six quads of `w` stand at the six addresses from `n` on, w[0] at the lowest (R68). -/
def Memory.HoldsWord (m : Memory) (n : Nat) (w : InstrWord) : Prop :=
  Memory.readAt m n = w.cls ∧ Memory.readAt m (n + 1) = w.subop ∧ Memory.readAt m (n + 2) = w.rnf0 ∧
  Memory.readAt m (n + 3) = w.rnf1 ∧ Memory.readAt m (n + 4) = w.a ∧ Memory.readAt m (n + 5) = w.b

/-- Only the six cells of a word decide whether it stands there. -/
theorem Memory.HoldsWord.congr {m m' : Memory} {n : Nat} {w : InstrWord} (h : Memory.HoldsWord m n w)
    (hm : ∀ k, k < n + 6 → Memory.readAt m' k = Memory.readAt m k) : Memory.HoldsWord m' n w := by
  unfold Memory.HoldsWord
  rw [hm n (by omega), hm (n + 1) (by omega), hm (n + 2) (by omega), hm (n + 3) (by omega), hm (n + 4) (by omega),
    hm (n + 5) (by omega)]
  exact h

theorem State.loadWord_holdsWord {s : State} (a : Address) (w : InstrWord) (hm : Memory.wf s.mem = true)
    (ha : a.linear + 6 ≤ 64) : Memory.HoldsWord (s.loadWord a w).mem a.linear w := by
  simp [Memory.HoldsWord, State.loadWord_readAt a w _ hm ha]

theorem State.loadWord_readAt_outside {s : State} (a : Address) (w : InstrWord) {n : Nat} (hm : Memory.wf s.mem = true)
    (ha : a.linear + 6 ≤ 64) (hn : n < a.linear ∨ a.linear + 6 ≤ n) :
    Memory.readAt (s.loadWord a w).mem n = Memory.readAt s.mem n := by
  rw [State.loadWord_readAt a w n hm ha, if_neg (by omega), if_neg (by omega), if_neg (by omega), if_neg (by omega),
    if_neg (by omega), if_neg (by omega)]

/-- Words loaded from index `i` on leave every cell below and above them. -/
theorem State.loadFrom_readAt_outside {s : State} {i n : Nat} (code : List InstrWord) (hm : Memory.wf s.mem = true)
    (hfit : (i + code.length) * 6 ≤ 64) (hn : n < i * 6 ∨ (i + code.length) * 6 ≤ n) :
    Memory.readAt (s.loadFrom i code).mem n = Memory.readAt s.mem n := by
  induction code generalizing s i with
  | nil => rfl
  | cons w rest ih =>
    rw [List.length_cons] at hfit hn
    have hlinear : (Address.ofLinear (i * 6)).linear = i * 6 := Address.linear_ofLinear (by omega)
    calc Memory.readAt (s.loadFrom i (w :: rest)).mem n
        = Memory.readAt (s.loadWord (Address.ofLinear (i * 6)) w).mem n :=
          ih (State.loadWord_wf _ w hm) (by omega) (by omega)
      _ = Memory.readAt s.mem n := State.loadWord_readAt_outside _ w hm (by omega) (by omega)

/-- Word `k` of the words loaded from index `i` on stands at instruction index `i + k` (R74). -/
theorem State.loadFrom_holdsWord {s : State} {i : Nat} (code : List InstrWord) (hm : Memory.wf s.mem = true)
    (hfit : (i + code.length) * 6 ≤ 64) (k : Nat) (hk : k < code.length) :
    Memory.HoldsWord (s.loadFrom i code).mem ((i + k) * 6) code[k] := by
  induction code generalizing s i k with
  | nil => exact absurd hk (Nat.not_lt_zero k)
  | cons w rest ih =>
    rw [List.length_cons] at hfit hk
    have hlinear : (Address.ofLinear (i * 6)).linear = i * 6 := Address.linear_ofLinear (by omega)
    have hm' : Memory.wf (s.loadWord (Address.ofLinear (i * 6)) w).mem = true := State.loadWord_wf _ w hm
    cases k with
    | zero =>
      have hword := State.loadWord_holdsWord (s := s) (Address.ofLinear (i * 6)) w hm (by omega)
      rw [hlinear] at hword
      exact hword.congr fun n hn => State.loadFrom_readAt_outside rest hm' (by omega) (by omega)
    | succ k =>
      have hrest := ih (i := i + 1) hm' (by omega) k (by omega)
      rwa [Nat.add_right_comm i 1 k] at hrest

/-- An admitted image loads (R75): the converse of `State.load_next`. -/
theorem State.load_of_imageWellFormed (s : State) {code : List RawWord} (h : imageWellFormed code = true) :
    s.load code = .next (s.loadFrom 0 (code.map RawWord.quads)) := by
  obtain ⟨hfits, hall⟩ := Bool.and_eq_true_iff.mp h
  rw [State.load, if_pos hfits, if_pos hall]

/-- Memory that holds a checked raw word holds its integers: nothing was reduced (R75 (b)). -/
theorem Memory.HoldsWord.raw {m : Memory} {n : Nat} {w : RawWord} (h : Memory.HoldsWord m n w.quads)
    (hw : w.wellFormed = true) :
    (Memory.readAt m n).val = w.cls ∧ (Memory.readAt m (n + 1)).val = w.subop ∧
    (Memory.readAt m (n + 2)).val = w.rnf0 ∧ (Memory.readAt m (n + 3)).val = w.rnf1 ∧
    (Memory.readAt m (n + 4)).val = w.a ∧ (Memory.readAt m (n + 5)).val = w.b := by
  obtain ⟨hcls, hsubop, hrnf0, hrnf1, ha, hb⟩ := h
  obtain ⟨lcls, lsubop, lrnf0, lrnf1, la, lb⟩ := (RawWord.wellFormed_iff w).mp hw
  rw [hcls, hsubop, hrnf0, hrnf1, ha, hb]
  exact ⟨Nat.mod_eq_of_lt lcls, Nat.mod_eq_of_lt lsubop, Nat.mod_eq_of_lt lrnf0, Nat.mod_eq_of_lt lrnf1,
    Nat.mod_eq_of_lt la, Nat.mod_eq_of_lt lb⟩

/-- Settles O37: the words of an admitted image stand from index 0 on, and `loadFrom` changes nothing else. -/
theorem loadPlacesImage : Obligations.LoadPlacesImage := by
  refine ⟨fun _ => rfl, fun code s hm himage => ?_⟩
  obtain ⟨hlength, hall⟩ := (imageWellFormed_iff code).mp himage
  have hmap : (code.map RawWord.quads).length = code.length := List.length_map RawWord.quads
  refine ⟨_, s.load_of_imageWellFormed himage, fun i hi => ?_, fun n hn => ?_, State.loadFrom_wf 0 _ hm,
    s.loadFrom_frame 0 _⟩
  · have hword := State.loadFrom_holdsWord (code.map RawWord.quads) hm (i := 0) (by omega) i (by omega)
    rw [Nat.zero_add, List.getElem_map] at hword
    exact hword.raw (hall code[i] (List.getElem_mem hi))
  · exact State.loadFrom_readAt_outside _ hm (by omega) (by omega)

end Sys2Proof.Machine
end

section
/-! The opcode of a word (spec/30_encoding.md R92): its two digits select one row of the opcode table, that of the instruction
decoded. -/

namespace Sys2Proof

/-- A word matches one row of the opcode table, the row of the instruction it decodes to (R101, R114). -/
theorem opcodeTable_filter_matchesWord (w : InstrWord) :
    (opcodeTable.filter fun r => r.matchesWord w) =
      [{ cls := w.cls, subop := w.subop, mnemonic := (decode w).mnemonic }] := by
  obtain ⟨c, k, _, _, _, _⟩ := w
  fin_cases c <;> fin_cases k <;> rfl

end Sys2Proof

namespace Sys2Proof.Machine

/-- Settles O4: the class decoder, the cascade of the two decoders, and the row that a word of the pair matches. -/
theorem classAndSubopSelectOneOperation : Obligations.ClassAndSubopSelectOneOperation := fun instr0 instr1 =>
  ⟨decode4_eq_ite instr0 3, decode4_decode4 instr0 instr1 3,
    congrArg List.length (opcodeTable_filter_matchesWord ⟨instr0, instr1, 0, 0, 0, 0⟩)⟩

end Sys2Proof.Machine
end

section
/-! The padding of a two-quad instruction (spec/30_encoding.md R99, R100). -/

namespace Sys2Proof.Machine

/-- Two quads are fetched where there is no operand word, and only there (R99). -/
theorem fetchLength_eq_two_iff (cfg : Config) (c k : Quad) : fetchLength cfg c k = 2 ↔ operandCount cfg c k = 0 := by
  unfold fetchLength
  split
  case isTrue hcount => simp only [hcount]
  case isFalse hcount => simp [hcount]

/-- The word of a two-quad instruction is made of the two quads at the pc and of zeros. -/
theorem State.fetch_word_short {s : State} (h : fetchLength s.cfg (s.quadAhead 0) (s.quadAhead 1) = 2) :
    s.fetch.1 = { cls := s.quadAhead 0, subop := s.quadAhead 1, rnf0 := 0, rnf1 := 0, a := 0, b := 0 } := by
  have hcount := (fetchLength_eq_two_iff _ _ _).mp h
  rw [← s.read_advance 0, ← s.read_advance 1, Address.advance_zero] at hcount ⊢
  rw [s.fetch_short hcount]

/-- Settles O21: both states fetch the padded word of the two quads on which they agree. -/
theorem paddingIsNotRead : Obligations.PaddingIsNotRead := by
  intro s t hcfg hcls hsubop hlength
  have hs := State.fetch_word_short hlength
  rw [hcfg, hcls, hsubop] at hlength
  have ht := State.fetch_word_short hlength
  rw [← hcls, ← hsubop] at ht
  exact ⟨hs, ht.trans hs.symm⟩

end Sys2Proof.Machine
end

section
/-! Halted and running machines (spec/40_execution.md R121, R122, R138): a halted machine has no step, a running one always
has, and it goes on running unless the step is an HLT. -/

namespace Sys2Proof.Machine

/-- Every instruction has one effect and the halt test before it; none has a way of its own to stop. -/
theorem exec_eq_unlessHalted (i : Instr) (s : State) : ∃ t, exec i s = s.unlessHalted t := by
  cases i <;> exact ⟨_, rfl⟩

theorem exec_halted (i : Instr) {s : State} (h : s.halted = true) : exec i s = .fault .halted := by
  obtain ⟨t, ht⟩ := exec_eq_unlessHalted i s
  rw [ht, State.unlessHalted_halted t h]

theorem exec_running (i : Instr) {s : State} (h : s.halted = false) : ∃ t, exec i s = .next t := by
  obtain ⟨t, ht⟩ := exec_eq_unlessHalted i s
  exact ⟨t, by rw [ht, State.unlessHalted_running t h]⟩

theorem step_halted {s : State} (h : s.halted = true) : step s = .fault .halted :=
  if_pos h

/-- The halt test passed, a step is the instruction fetched (R120). -/
theorem step_eq_exec {s : State} (h : s.halted = false) : step s = exec (decode s.fetch.1) s.fetch.2 :=
  if_neg (Bool.eq_false_iff.mp h)

/-- FETCH leaves the machine running, so the instruction it fetched completes. -/
theorem step_running {s : State} (h : s.halted = false) : ∃ t, step s = .next t := by
  obtain ⟨t, ht⟩ := exec_running (decode s.fetch.1) (s.fetch_halted.trans h)
  exact ⟨t, (step_eq_exec h).trans ht⟩

/-- Settles O23: the halt flag is the halted condition, which step and every instruction test first. -/
theorem haltedMachineHasNoStep : Obligations.HaltedMachineHasNoStep := fun s hflag =>
  have h : s.halted = true := s.halted_iff.mpr hflag
  ⟨step_halted h, fun i => exec_halted i h⟩

/-- A step of any instruction but HLT ends in a machine not halted: neither FETCH nor EXECUTE touches the halt flag (R40). -/
theorem step_not_halted_of_ne_hlt {s t : State} (h : step s = .next t) (hi : decode s.fetch.1 ≠ .hlt) :
    t.halted = false := by
  obtain ⟨hrun, hexec⟩ := step_next_inv h
  have hflag : t.flag.read 3 3 = s.flag.read 3 3 :=
    (exec_haltFlag_of_ne_hlt hexec hi).trans (by rw [State.fetch_flag])
  rw [State.halted_eq, hflag, ← State.halted_eq, hrun]

/-- A run whose first step completes is the shorter run from there. -/
theorem runSteps_succ_of_next {s t : State} (h : step s = .next t) (k : Nat) : runSteps (k + 1) s = runSteps k t := by
  rw [runSteps_succ, h]

/-- Settles O35, by induction on the number of steps: the first step completes and leaves the machine running, and what the
rest of the run fetches is what the whole run fetches one step later. -/
theorem runWithoutHltGoesOn : Obligations.RunWithoutHltGoesOn := by
  intro k
  induction k with
  | zero => exact fun s hs _ => ⟨s, runSteps_zero s, hs⟩
  | succ k ih =>
    intro s hs hfetch
    obtain ⟨t, ht⟩ := step_running hs
    have hfirst : decode s.fetch.1 ≠ .hlt := hfetch 0 s k.succ_pos (runSteps_zero s)
    have hrest : ∀ (j : Nat) (u : State), j < k → runSteps j t = .next u → decode u.fetch.1 ≠ .hlt := fun j u hj hu =>
      hfetch (j + 1) u (Nat.succ_lt_succ hj) ((runSteps_succ_of_next ht j).trans hu)
    rw [runSteps_succ_of_next ht]
    exact ih t (step_not_halted_of_ne_hlt ht hfirst) hrest

/-- Settles O10: the advance is `add(1,0,0)` by definition, and its linear value is the law of the counter (R44). -/
theorem counterAdvanceWrapsAt64 : Obligations.CounterAdvanceWrapsAt64 := fun a =>
  ⟨rfl, a.linear_succ⟩

end Sys2Proof.Machine
end

section
/-! The word of an instruction read back (spec/30_encoding.md R93, R101), its length where a unit of the ALU runs (R98), and
the assembler's word of two register operands (R102). -/

namespace Sys2Proof

@[simp] theorem OperandKind.ofRnf_rnf (k : OperandKind) : OperandKind.ofRnf k.rnf = k := by
  cases k <;> rfl

/-- A quad is reduced already (R12, R22). -/
theorem quadOfNat_of_val (x : Quad) : quadOfNat x.val = x := Fin.ofNat_val_eq_self x

/-- Decoding undoes encoding: the opcode digits pick the constructor, and the operand kinds survive their RNF quads. -/
theorem decode_encode (i : Instr) : decode (encode i) = i := by
  cases i <;> simp [decode, encode, operandWord]

end Sys2Proof

namespace Sys2Proof.Machine

/-- The arithmetic and the logic class have an operand word, whatever the parameters (R98). -/
theorem fetchLength_of_alu_class (cfg : Config) {c : Quad} (hc : c = 0 ∨ c = 1) (k : Quad) : fetchLength cfg c k = 6 := by
  have hcount : operandCount cfg c k ≠ 0 := by
    obtain rfl | rfl := hc <;> simp [operandCount, romInstr, decode4_eq_ite]
  exact if_neg hcount

/-- Two quads are register indices in range and are not reduced (R109). -/
theorem asmRegisters_val (cls subop a b : Quad) :
    asmRegisters cls subop a.val b.val = .ok (operandWord cls subop .register .register a b) := by
  rw [asmRegisters, if_pos ⟨a.isLt, b.isLt⟩, quadOfNat_of_val, quadOfNat_of_val]

end Sys2Proof.Machine
end

section
/-! The arithmetic units as integer functions of their operands (spec/41_arithmetic.md R150 to R152): one rule per output. -/

namespace Sys2Proof.Machine

@[simp] theorem adderSum_val (a b : Quad) : (adderSum a b).val = (a.val + b.val) % 4 := qmod_val a b

/-- `COM(A, NOT(B))` is what A exceeds `3 - B` by, so it is positive where the sum leaves the quads (R150). -/
@[simp] theorem addCarry_val (a b : Quad) : (addCarry a b).val = if 4 ≤ a.val + b.val then 1 else 0 := by
  simp only [addCarry, qmin_val, qmax_val, qcom_val, qnot_val, Fin.val_one]
  split <;> omega

/-- Adding `NOT(B)` and 1 adds `4 - B` (R151). -/
@[simp] theorem subDiff_val (a b : Quad) : (subDiff a b).val = (a.val + 4 - b.val) % 4 := by
  simp only [subDiff, qmod_val, qnot_val, Fin.val_one]
  omega

@[simp] theorem subBorrow_val (a b : Quad) : (subBorrow a b).val = if a.val < b.val then 1 else 0 := by
  simp only [subBorrow, qmin_val, qcom_val, Fin.val_one]
  split <;> omega

/-- The partial values are the multiples that their index names (R152). -/
theorem multiple_val (k a : Quad) : (multiple k a).val = a.val * k.val % 4 := by
  fin_cases k <;> simp [multiple] <;> omega

/-- The one-hot decode of B leaves one partial value of A, the one of index B (R152). -/
theorem mulProduct_eq_multiple (a b : Quad) : mulProduct a b = multiple b a := by
  have hother : ∀ k, k ≠ b → qmin (decode4 b 3 k) (multiple k a) = 0 := fun k hk => by
    rw [decode4_eq_ite, if_neg hk, qmin_zero_left]
  rw [mulProduct, reduce4_of_single b hother, decode4_self, qmin_three_left]

@[simp] theorem mulProduct_val (a b : Quad) : (mulProduct a b).val = a.val * b.val % 4 := by
  rw [mulProduct_eq_multiple, multiple_val]

/-- `MIN` of the two indicators is their conjunction (R152). -/
@[simp] theorem mulCarry_val (a b : Quad) : (mulCarry a b).val = if 2 ≤ a.val ∧ 2 ≤ b.val then 1 else 0 := by
  simp only [mulCarry, atLeastTwo, qmin_val, apply_ite Fin.val, ite_and]
  split <;> split <;> rfl

/-- Settles O12: each output is its composition of primitives by definition, and the rule of that output gives its value. -/
theorem halfAdderAndSubtractorArithmetic : Obligations.HalfAdderAndSubtractorArithmetic := fun a b =>
  ⟨rfl, rfl, addCarry_val a b, adderSum_val a b, rfl, rfl, subBorrow_val a b, subDiff_val a b⟩

end Sys2Proof.Machine
end

section
/-! The instructions of the arithmetic class (spec/41_arithmetic.md R154 to R156): the effect that every ALU instruction shares,
then the rules of the unit it runs. -/

namespace Sys2Proof.Machine

/-- Register A holds the unit's result (spec/40_execution.md R133). -/
theorem State.aluEffect_result (unit : Unit2) (k0 k1 : OperandKind) (a b : Quad) (s : State) :
    (s.aluEffect unit k0 k1 a b).reg.read a 0 = (unit (s.resolve k0 a) (s.resolve k1 b)).2 := by
  obtain ⟨hreg, _⟩ := State.aluEffect_spec unit k0 k1 a b s
  rw [hreg, RegFile.read_write_same]

/-- Flag A holds the unit's flag (spec/40_execution.md R132). -/
theorem State.aluEffect_condFlag (unit : Unit2) (k0 k1 : OperandKind) (a b : Quad) (s : State) :
    (s.aluEffect unit k0 k1 a b).flag.read a 0 = (unit (s.resolve k0 a) (s.resolve k1 b)).1 := by
  obtain ⟨_, hflag, _⟩ := State.aluEffect_spec unit k0 k1 a b s
  rw [hflag, RegFile.read_write_same]

/-- An ALU instruction changes register A and flag A at most (spec/40_execution.md R136). -/
theorem State.aluEffect_onlyWrites (unit : Unit2) (k0 k1 : OperandKind) (a b : Quad) (s : State) :
    OnlyWrites s (s.aluEffect unit k0 k1 a b) [(a, 0)] [(a, 0)] := by
  obtain ⟨hreg, hflag, hmem, hpc, hcfg⟩ := State.aluEffect_spec unit k0 k1 a b s
  exact
    { registers := fun row col h => by rw [hreg, RegFile.read_write_other s.reg (List.ne_of_not_mem_cons h)]
      flags := fun row col h => by rw [hflag, RegFile.read_write_other s.flag (List.ne_of_not_mem_cons h)]
      memory := fun n => by rw [hmem]
      counter := hpc
      parameters := hcfg }

/-- Settles O40: ADD is the ALU effect of the half-adder. -/
theorem addWritesSumAndCarry : Obligations.AddWritesSumAndCarry := fun k0 k1 a b s h =>
  ⟨decode_encode (.add k0 k1 a b), fetchLength_of_alu_class s.cfg (.inl rfl) 0, asmRegisters_val 0 0 a b,
   s.aluEffect halfAdder k0 k1 a b, State.unlessHalted_running _ h,
   by rw [State.aluEffect_result, halfAdder, adderSum_val],
   by rw [State.aluEffect_condFlag, halfAdder, addCarry_val],
   s.aluEffect_onlyWrites halfAdder k0 k1 a b⟩

/-- Settles O41: SUB is the ALU effect of the half-subtractor. -/
theorem subWritesDifferenceAndBorrow : Obligations.SubWritesDifferenceAndBorrow := fun k0 k1 a b s h =>
  ⟨decode_encode (.sub k0 k1 a b), fetchLength_of_alu_class s.cfg (.inl rfl) 1, asmRegisters_val 0 1 a b,
   s.aluEffect halfSubtractor k0 k1 a b, State.unlessHalted_running _ h,
   by rw [State.aluEffect_result, halfSubtractor, subDiff_val],
   by rw [State.aluEffect_condFlag, halfSubtractor, subBorrow_val],
   s.aluEffect_onlyWrites halfSubtractor k0 k1 a b⟩

/-- Settles O42: MUL is the ALU effect of the half-multiplier. -/
theorem mulWritesProductAndCarry : Obligations.MulWritesProductAndCarry := fun k0 k1 a b s h =>
  ⟨decode_encode (.mul k0 k1 a b), fetchLength_of_alu_class s.cfg (.inl rfl) 2, asmRegisters_val 0 2 a b,
   s.aluEffect halfMultiplier k0 k1 a b, State.unlessHalted_running _ h,
   by rw [State.aluEffect_result, halfMultiplier, mulProduct_val],
   by rw [State.aluEffect_condFlag, halfMultiplier, mulCarry_val],
   s.aluEffect_onlyWrites halfMultiplier k0 k1 a b⟩

end Sys2Proof.Machine
end

section
/-! The instructions of the logic class (spec/42_logic.md R170 to R174): what a unit without a flag does, said once for any
operation on two quads, then the value of the operation that each instruction runs. -/

namespace Sys2Proof.Machine

/-- The complement of the greater operand (R174). -/
@[simp] theorem notMax_val (a b : Quad) : (notMax a b).val = 3 - max a.val b.val := by
  rw [notMax, qnot_val, qmax_val]

/-- An ALU instruction whose unit pairs an operation with `noFlag` completes on a running machine: register A holds the
operation's value, flag A is 0, and nothing else changes (R170). -/
theorem State.aluEffect_noFlag_completes (op : Quad → Quad → Quad) (k0 k1 : OperandKind) (a b : Quad) {s : State}
    (h : s.halted = false) {n : Nat} (hval : (op (s.resolve k0 a) (s.resolve k1 b)).val = n) :
    ∃ t, s.unlessHalted (s.aluEffect (fun v w => (noFlag, op v w)) k0 k1 a b) = .next t ∧
      (t.reg.read a 0).val = n ∧ t.flag.read a 0 = 0 ∧ OnlyWrites s t [(a, 0)] [(a, 0)] := by
  refine ⟨_, State.unlessHalted_running _ h, ?result, ?condFlag, State.aluEffect_onlyWrites _ k0 k1 a b s⟩
  case result => rw [State.aluEffect_result, hval]
  case condFlag => rw [State.aluEffect_condFlag, noFlag]

/-- Settles O44: MIN is the flagless ALU effect of `qmin`. -/
theorem minWritesMinimumAndClearsFlag : Obligations.MinWritesMinimumAndClearsFlag := fun k0 k1 a b s h =>
  ⟨decode_encode (.min k0 k1 a b), fetchLength_of_alu_class s.cfg (.inr rfl) 0, asmRegisters_val 1 0 a b,
   State.aluEffect_noFlag_completes qmin k0 k1 a b h (qmin_val _ _)⟩

/-- Settles O45: MAX is the flagless ALU effect of `qmax`. -/
theorem maxWritesMaximumAndClearsFlag : Obligations.MaxWritesMaximumAndClearsFlag := fun k0 k1 a b s h =>
  ⟨decode_encode (.max k0 k1 a b), fetchLength_of_alu_class s.cfg (.inr rfl) 1, asmRegisters_val 1 1 a b,
   State.aluEffect_noFlag_completes qmax k0 k1 a b h (qmax_val _ _)⟩

/-- Settles O46: MOD is the flagless ALU effect of `qmod`, the addition without its carry. -/
theorem modWritesSumAndClearsFlag : Obligations.ModWritesSumAndClearsFlag := fun k0 k1 a b s h =>
  ⟨decode_encode (.mod k0 k1 a b), fetchLength_of_alu_class s.cfg (.inr rfl) 2, asmRegisters_val 1 2 a b,
   State.aluEffect_noFlag_completes qmod k0 k1 a b h (qmod_val _ _)⟩

/-- Settles O47: NOT is the flagless ALU effect of `notMax`; the assembler's second register is R0. -/
theorem notWritesComplementOfMaximum : Obligations.NotWritesComplementOfMaximum := fun k0 k1 a b s h =>
  ⟨decode_encode (.not k0 k1 a b), fetchLength_of_alu_class s.cfg (.inr rfl) 3, asmRegisters_val 1 3 a 0,
   State.aluEffect_noFlag_completes notMax k0 k1 a b h (notMax_val _ _)⟩

end Sys2Proof.Machine
end

section
/-! What the single writes of an instruction leave as before (spec/40_execution.md R136): one frame rule per write, and the
rule that composes them. -/

namespace Sys2Proof.Machine

/-- Two changes in turn write what either of them writes. -/
theorem OnlyWrites.trans {s t u : State} {regs regs' flags flags' : List (Quad × Quad)} (hst : OnlyWrites s t regs flags)
    (htu : OnlyWrites t u regs' flags') : OnlyWrites s u (regs ++ regs') (flags ++ flags') where
  registers row col h := by
    obtain ⟨hfirst, hsecond⟩ := not_or.mp (mt List.mem_append.mpr h)
    exact (htu.registers row col hsecond).trans (hst.registers row col hfirst)
  flags row col h := by
    obtain ⟨hfirst, hsecond⟩ := not_or.mp (mt List.mem_append.mpr h)
    exact (htu.flags row col hsecond).trans (hst.flags row col hfirst)
  memory n := (htu.memory n).trans (hst.memory n)
  counter := htu.counter.trans hst.counter
  parameters := htu.parameters.trans hst.parameters

theorem State.writeFlag_onlyWrites (s : State) (row col v : Quad) :
    OnlyWrites s (s.writeFlag row col v) [] [(row, col)] where
  registers _ _ _ := by rw [State.writeFlag_reg]
  flags _ _ h := by rw [State.writeFlag_flag, RegFile.read_write_other s.flag (List.ne_of_not_mem_cons h)]
  memory _ := by rw [State.writeFlag_mem]
  counter := s.writeFlag_pc row col v
  parameters := s.writeFlag_cfg row col v

/-- The condition flag is one cell of column 0 (R132). -/
theorem State.writeCondFlag_onlyWrites (s : State) (x f : Quad) : OnlyWrites s (s.writeCondFlag x f) [] [(x, 0)] :=
  s.writeFlag_onlyWrites x 0 f

theorem State.writeReg_onlyWrites (s : State) (x v : Quad) : OnlyWrites s (s.writeReg x v) [(x, 0)] [] where
  registers _ _ h := by rw [State.writeReg_reg, RegFile.read_write_other s.reg (List.ne_of_not_mem_cons h)]
  flags _ _ _ := by rw [State.writeReg_flag]
  memory _ := by rw [State.writeReg_mem]
  counter := s.writeReg_pc x v
  parameters := s.writeReg_cfg x v

end Sys2Proof.Machine
end

section
/-! The moves of the code class (spec/43_code.md R190 to R193): LOAD, STORE and COPY are one effect with a destination and a
value of their own. -/

namespace Sys2Proof.Machine

/-- Every code-class instruction but HLT has an operand word, whatever the parameters (spec/30_encoding.md R98). -/
theorem fetchLength_of_code_move (cfg : Config) {k : Quad} (hk : k = 0 ∨ k = 1 ∨ k = 2) : fetchLength cfg 2 k = 6 := by
  have hcount : operandCount cfg 2 k ≠ 0 := by
    obtain rfl | rfl | rfl := hk <;> simp [operandCount, romInstr, decode4_eq_ite]
  exact if_neg hcount

/-- Two quads are a register index and an immediate in range and are not reduced (spec/30_encoding.md R109). -/
theorem assemble_load_val (a imm : Quad) :
    assemble (.load a.val imm.val) = .ok (operandWord 2 0 .register .immediate a imm) := by
  rw [assemble, if_pos a.isLt, if_pos imm.isLt, quadOfNat_of_val, quadOfNat_of_val]

/-- A move changes its destination register and the condition flag at most (R190). -/
theorem State.moveEffect_onlyWrites (a dst v : Quad) (s : State) :
    OnlyWrites s (s.moveEffect a dst v) [(dst, 0)] [(a, 0)] :=
  (s.writeCondFlag_onlyWrites a noFlag).trans ((s.writeCondFlag a noFlag).writeReg_onlyWrites dst v)

/-- A move completes on a running machine: the destination register holds the value, flag A is 0, and nothing else changes
(R190). -/
theorem State.moveEffect_completes (a dst v : Quad) {s : State} (h : s.halted = false) :
    ∃ t, s.unlessHalted (s.moveEffect a dst v) = .next t ∧
      t.reg.read dst 0 = v ∧ t.flag.read a 0 = 0 ∧ OnlyWrites s t [(dst, 0)] [(a, 0)] := by
  obtain ⟨hreg, hflag, _⟩ := State.moveEffect_spec a dst v s
  refine ⟨_, State.unlessHalted_running _ h, ?destination, ?condFlag, State.moveEffect_onlyWrites a dst v s⟩
  case destination => rw [hreg, RegFile.read_write_same]
  case condFlag => rw [hflag, RegFile.read_write_same]

/-- Settles O48: LOAD moves the second operand into register A. -/
theorem loadCopiesSecondOperand : Obligations.LoadCopiesSecondOperand := fun k0 k1 a b s h =>
  ⟨decode_encode (.load k0 k1 a b), fetchLength_of_code_move s.cfg (.inl rfl), assemble_load_val a b,
   State.moveEffect_completes a a (s.resolve k1 b) h⟩

/-- Settles O49: STORE is the move of LOAD, and the frame of a move holds every memory cell. -/
theorem storeCopiesSecondOperand : Obligations.StoreCopiesSecondOperand := fun k0 k1 a b s h =>
  ⟨decode_encode (.store k0 k1 a b), fetchLength_of_code_move s.cfg (.inr (.inl rfl)), asmRegisters_val 2 1 a b,
   State.moveEffect_completes a a (s.resolve k1 b) h⟩

/-- Settles O50: COPY moves the first operand into register B; the assembler's line names the destination first. -/
theorem copyWritesFirstOperandToB : Obligations.CopyWritesFirstOperandToB := fun k0 k1 a b s h =>
  ⟨decode_encode (.copy k0 k1 a b), fetchLength_of_code_move s.cfg (.inr (.inr rfl)), asmRegisters_val 2 2 a b,
   State.moveEffect_completes a b (s.resolve k0 a) h⟩

end Sys2Proof.Machine
end

section
/-! HLT (spec/43_code.md R194): two quads, two flag cells written, and no step after it. -/

namespace Sys2Proof

/-- The operand fields of an HLT word are not read (spec/30_encoding.md R100). -/
theorem decode_hlt_word (r0 r1 a b : Quad) : decode ⟨2, 3, r0, r1, a, b⟩ = .hlt := rfl

end Sys2Proof

namespace Sys2Proof.Machine

/-- HLT has no operand word, whatever the parameters (spec/30_encoding.md R98). -/
theorem fetchLength_hlt (cfg : Config) : fetchLength cfg 2 3 = 2 := by
  have hcount : operandCount cfg 2 3 = 0 := by
    cases hfn : cfg.fnClassLength <;> simp [operandCount, romInstr, decode4_eq_ite, hfn]
  exact if_pos hcount

/-- HLT completes on a running machine: it clears flag (0,0), sets the halt flag and changes nothing else. -/
theorem exec_hlt_completes {s : State} (h : s.halted = false) :
    ∃ t, exec .hlt s = .next t ∧ t.flag.read 3 3 = 3 ∧ t.flag.read 0 0 = 0 ∧ OnlyWrites s t [] [(0, 0), (3, 3)] := by
  have hexec : exec .hlt s = .next ((s.writeCondFlag 0 noFlag).writeFlag 3 3 3) := State.unlessHalted_running _ h
  refine ⟨_, hexec, exec_hlt_haltFlag hexec, ?condFlag,
    (s.writeCondFlag_onlyWrites 0 noFlag).trans ((s.writeCondFlag 0 noFlag).writeFlag_onlyWrites 3 3 3)⟩
  case condFlag =>
    rw [State.writeFlag_flag, RegFile.read_write_other _ (by decide), State.writeCondFlag_read, if_pos ⟨rfl, rfl⟩, noFlag]

/-- The machine that HLT leaves has no further step (spec/40_execution.md R122). -/
theorem step_of_haltFlag_three {s : State} (h : s.flag.read 3 3 = 3) : step s = .fault .halted :=
  step_halted (s.halted_iff.mpr (by rw [h]; decide))

/-- Where the quads 2 and 3 stand at the pc, a step of a running machine is HLT after FETCH (spec/40_execution.md R120). -/
theorem step_eq_exec_hlt {s : State} (h : s.halted = false) (hcls : s.quadAhead 0 = 2) (hsubop : s.quadAhead 1 = 3) :
    step s = exec .hlt s.fetch.2 := by
  have hlength : fetchLength s.cfg (s.quadAhead 0) (s.quadAhead 1) = 2 := by rw [hcls, hsubop, fetchLength_hlt]
  rw [step_eq_exec h, State.fetch_word_short hlength, hcls, hsubop, decode_hlt_word]

/-- Settles O51: the word, the instruction on any running machine, and the step that fetches it. -/
theorem hltSetsHaltFlag : Obligations.HltSetsHaltFlag := by
  refine ⟨decode_hlt_word, fun s h => ⟨fetchLength_hlt s.cfg, ?completes⟩, fun s h hcls hsubop => ?steps⟩
  case completes =>
    obtain ⟨t, hexec, hhalt, hcond, hframe⟩ := exec_hlt_completes h
    exact ⟨t, hexec, hhalt, hcond, hframe, step_of_haltFlag_three hhalt⟩
  case steps =>
    obtain ⟨t, hexec, hhalt, hcond, hframe⟩ := exec_hlt_completes (s.fetch_halted.trans h)
    have hstep : step s = .next t := (step_eq_exec_hlt h hcls hsubop).trans hexec
    have hpc : t.pc.linear = (s.pc.linear + 2) % 64 := by
      rw [hframe.counter, State.fetch_pc_linear, hcls, hsubop, fetchLength_hlt]
    have hreg : t.reg = s.reg :=
      RegFile.ext_read fun row col => (hframe.registers row col List.not_mem_nil).trans (by rw [State.fetch_reg])
    exact ⟨t, hstep, hpc, hhalt, hcond, hreg, (step_next_fixed hstep).1⟩

end Sys2Proof.Machine
end

section
/-! The function class (spec/44_function.md R210 to R215): its four instructions are one effect, the write of their condition
flag. -/

namespace Sys2Proof.Machine

/-- The flag write alone completes on a running machine: flag A is 0, and nothing else changes (R210). -/
theorem State.writeCondFlag_noFlag_completes (a : Quad) {s : State} (h : s.halted = false) :
    ∃ t, s.unlessHalted (s.writeCondFlag a noFlag) = .next t ∧ t.flag.read a 0 = 0 ∧ OnlyWrites s t [] [(a, 0)] := by
  refine ⟨_, State.unlessHalted_running _ h, ?condFlag, s.writeCondFlag_onlyWrites a noFlag⟩
  case condFlag => rw [State.writeCondFlag_flag, RegFile.read_write_same, noFlag]

/-- An instruction of the function class is its flag write, whatever its operand kinds and its field B (R211 to R214). -/
theorem exec_function_class {k0 k1 : OperandKind} {a b : Quad} {i : Instr}
    (hi : i = .call k0 k1 a b ∨ i = .jmp k0 k1 a b ∨ i = .jcmp k0 k1 a b ∨ i = .ret k0 k1 a b) (s : State) :
    exec i s = s.unlessHalted (s.writeCondFlag a noFlag) := by
  obtain rfl | rfl | rfl | rfl := hi <;> rfl

/-- Settles O52: the four words are those of `encode`, and each instruction is the flag write alone. -/
theorem functionClassOnlyClearsFlag : Obligations.FunctionClassOnlyClearsFlag := by
  intro k0 k1 a b s h
  refine ⟨decode_encode (.call k0 k1 a b), decode_encode (.jmp k0 k1 a b), decode_encode (.jcmp k0 k1 a b),
    decode_encode (.ret k0 k1 a b), fun i hi => ?completes⟩
  case completes =>
    rw [exec_function_class hi s]
    exact State.writeCondFlag_noFlag_completes a h

end Sys2Proof.Machine
end

section
/-! Decoding and encoding are inverse to each other (spec/30_encoding.md R91, R101), but for the operand positions of HLT, which
are not read (R105). -/

namespace Sys2Proof

/-- The four quads (R22), to split on one by name. -/
theorem quad_cases (x : Quad) : x = 0 ∨ x = 1 ∨ x = 2 ∨ x = 3 := by
  fin_cases x <;> simp

@[simp] theorem OperandKind.rnf_ofRnf (r : Quad) : (OperandKind.ofRnf r).rnf = r := by
  fin_cases r <;> rfl

/-- Encoding undoes decoding wherever the opcode is not HLT's: the constructor carries the two opcode digits, and the RNF quads
survive their operand kinds. -/
theorem encode_decode {w : InstrWord} (h : ¬ (w.cls = 2 ∧ w.subop = 3)) : encode (decode w) = w := by
  have hword : ∀ c k r0 r1 a b : Quad,
      operandWord c k (OperandKind.ofRnf r0) (OperandKind.ofRnf r1) a b = ⟨c, k, r0, r1, a, b⟩ := by
    intro c k r0 r1 a b
    rw [operandWord, OperandKind.rnf_ofRnf, OperandKind.rnf_ofRnf]
  obtain ⟨c, k, r0, r1, a, b⟩ := w
  obtain rfl | rfl | rfl | rfl := quad_cases c
  · obtain rfl | rfl | rfl | rfl := quad_cases k <;> exact hword _ _ r0 r1 a b
  · obtain rfl | rfl | rfl | rfl := quad_cases k <;> exact hword _ _ r0 r1 a b
  · obtain rfl | rfl | rfl | rfl := quad_cases k
    · exact hword 2 0 r0 r1 a b
    · exact hword 2 1 r0 r1 a b
    · exact hword 2 2 r0 r1 a b
    · exact absurd ⟨rfl, rfl⟩ h
  · obtain rfl | rfl | rfl | rfl := quad_cases k <;> exact hword _ _ r0 r1 a b

/-- A word with the opcode of HLT becomes the word the assembler emits (R110). -/
theorem encode_decode_hlt {w : InstrWord} (h : w.cls = 2 ∧ w.subop = 3) : encode (decode w) = ⟨2, 3, 0, 0, 0, 0⟩ := by
  obtain ⟨c, k, r0, r1, a, b⟩ := w
  obtain ⟨rfl, rfl⟩ := h
  rw [decode_hlt_word, encode]

end Sys2Proof

namespace Sys2Proof.Machine

/-- Settles O15: the two compositions of decoding and encoding, and the row of the opcode table that a word matches. -/
theorem decodeAndEncodeAgree : Obligations.DecodeAndEncodeAgree := by
  refine ⟨decode_encode, fun w => ?_, opcodeTable_filter_matchesWord⟩
  split
  case isTrue h => exact encode_decode_hlt h
  case isFalse h => exact encode_decode h

end Sys2Proof.Machine
end

section
/-! The machine's invariant (spec/10_state.md R35, R41, R42): an instruction writes column 0 of the two files and, if it is HLT,
the halt flag, so that each single write keeps the invariant, and with it a step and a run. -/

namespace Sys2Proof.Machine

/-- A change that leaves the two files and keeps the canonical form of memory keeps the invariant. -/
theorem State.Inv.of_files_eq {s t : State} (h : s.Inv) (hmem : Memory.wf s.mem = true → Memory.wf t.mem = true)
    (hreg : t.reg = s.reg) (hflag : t.flag = s.flag) : t.Inv where
  memoryCanonical := hmem h.memoryCanonical
  unreachedRegistersZero := by rw [hreg]; exact h.unreachedRegistersZero
  unreachedFlagsZero := by rw [hflag]; exact h.unreachedFlagsZero
  haltFlagZeroOrThree := by rw [hflag]; exact h.haltFlagZeroOrThree

/-- A cell outside column 0 is not the cell (x,0) that an instruction writes. -/
theorem RegFile.read_write_column_zero (f : RegFile) (x v row : Quad) {col : Quad} (hcol : col ≠ 0) :
    (f.write x 0 v).read row col = f.read row col :=
  RegFile.read_write_other f fun h => hcol (congrArg Prod.snd h)

theorem State.Inv.writeReg {s : State} (h : s.Inv) (x v : Quad) : (s.writeReg x v).Inv where
  memoryCanonical := h.memoryCanonical
  unreachedRegistersZero row col hcol :=
    (s.reg.read_write_column_zero x v row hcol).trans (h.unreachedRegistersZero row col hcol)
  unreachedFlagsZero := h.unreachedFlagsZero
  haltFlagZeroOrThree := h.haltFlagZeroOrThree

theorem State.Inv.writeCondFlag {s : State} (h : s.Inv) (x f : Quad) : (s.writeCondFlag x f).Inv where
  memoryCanonical := h.memoryCanonical
  unreachedRegistersZero := h.unreachedRegistersZero
  unreachedFlagsZero row col hcol hhalt :=
    (s.flag.read_write_column_zero x f row hcol).trans (h.unreachedFlagsZero row col hcol hhalt)
  haltFlagZeroOrThree := by rw [s.writeCondFlag_haltFlag]; exact h.haltFlagZeroOrThree

/-- Setting the halt flag to 3 is the one write outside column 0 (R40, R42). -/
theorem State.Inv.setHaltFlag {s : State} (h : s.Inv) : (s.writeFlag 3 3 3).Inv where
  memoryCanonical := h.memoryCanonical
  unreachedRegistersZero := h.unreachedRegistersZero
  unreachedFlagsZero row col hcol hhalt :=
    (RegFile.read_write_other s.flag hhalt).trans (h.unreachedFlagsZero row col hcol hhalt)
  haltFlagZeroOrThree := .inr (RegFile.read_write_same s.flag 3 3 3)

theorem State.Inv.fetch {s : State} (h : s.Inv) : s.fetch.2.Inv :=
  h.of_files_eq (by rw [State.fetch_mem]; exact id) s.fetch_reg s.fetch_flag

theorem State.Inv.exec {i : Instr} {s t : State} (h : s.Inv) (hexec : Machine.exec i s = .next t) : t.Inv := by
  obtain ⟨_, ⟨x, f, dst, v, rfl⟩ | ⟨_, rfl⟩ | ⟨x, rfl⟩⟩ := exec_next_cases hexec
  · exact (h.writeCondFlag x f).writeReg dst v
  · exact (h.writeCondFlag 0 noFlag).setHaltFlag
  · exact h.writeCondFlag x noFlag

theorem State.Inv.step {s t : State} (h : s.Inv) (hstep : Machine.step s = .next t) : t.Inv :=
  h.fetch.exec (step_next_inv hstep).2

/-- Settles O28: FETCH keeps the invariant, and so does each write an instruction can make. -/
theorem stepKeepsMachineInvariant : Obligations.StepKeepsMachineInvariant := fun _ _ => State.Inv.step

/-- Settles O31, by induction on the number of steps: a halted machine ends the run, a running one makes a step that keeps the
invariant. -/
theorem everyRunIsSafe : Obligations.EveryRunIsSafe := by
  intro k
  induction k with
  | zero => exact fun _ h => h
  | succ k ih =>
    intro s h
    cases hs : s.halted with
    | true =>
      rw [runSteps_succ, step_halted hs]
      exact trivial
    | false =>
      obtain ⟨t, ht⟩ := step_running hs
      rw [runSteps_succ_of_next ht]
      exact ih t (h.step ht)

end Sys2Proof.Machine
end

section
/-! What no instruction reaches (spec/10_state.md R35, R41): an instruction reads and writes column 0 of the two files and the
halt flag, so that machines which agree there step alike. -/

namespace Sys2Proof.Machine

/-- The four shapes of an instruction: an ALU effect, a move of one resolved operand, HLT, and the flag write alone (spec/
40_execution.md R132 to R135). The shape and its operands do not depend on the state. -/
theorem exec_shape (i : Instr) :
    (∃ unit k0 k1 a b, ∀ s, exec i s = s.unlessHalted (s.aluEffect unit k0 k1 a b)) ∨
    (∃ a dst k x, ∀ s, exec i s = s.unlessHalted (s.moveEffect a dst (s.resolve k x))) ∨
    i = .hlt ∨
    ∃ a, ∀ s, exec i s = s.unlessHalted (s.writeCondFlag a noFlag) := by
  cases i
  case load k1 a b => exact .inr (.inl ⟨a, a, k1, b, fun _ => rfl⟩)
  case store k1 a b => exact .inr (.inl ⟨a, a, k1, b, fun _ => rfl⟩)
  case copy k0 _ a b => exact .inr (.inl ⟨a, b, k0, a, fun _ => rfl⟩)
  case hlt => exact .inr (.inr (.inl rfl))
  case call a _ => exact .inr (.inr (.inr ⟨a, fun _ => rfl⟩))
  case jmp a _ => exact .inr (.inr (.inr ⟨a, fun _ => rfl⟩))
  case jcmp a _ => exact .inr (.inr (.inr ⟨a, fun _ => rfl⟩))
  case ret a _ => exact .inr (.inr (.inr ⟨a, fun _ => rfl⟩))
  all_goals exact .inl ⟨_, _, _, _, _, fun _ => rfl⟩

section
variable {s t : State} (h : AgreeOnReached s t)
include h

theorem AgreeOnReached.halted_eq : s.halted = t.halted := by
  rw [State.halted_eq, State.halted_eq, h.haltFlag]

/-- Operands are read in column 0 (spec/30_encoding.md R94). -/
theorem AgreeOnReached.resolve_eq (k : OperandKind) (x : Quad) : s.resolve k x = t.resolve k x :=
  State.resolve_congr h.registers h.flags h.parameters k x

theorem AgreeOnReached.writeReg (x v : Quad) : AgreeOnReached (s.writeReg x v) (t.writeReg x v) where
  memory := h.memory
  counter := h.counter
  parameters := h.parameters
  registers row := by rw [State.writeReg_read, State.writeReg_read, h.registers]
  flags := h.flags
  haltFlag := h.haltFlag

theorem AgreeOnReached.writeFlag (row col v : Quad) : AgreeOnReached (s.writeFlag row col v) (t.writeFlag row col v) where
  memory := h.memory
  counter := h.counter
  parameters := h.parameters
  registers := h.registers
  flags row' := by simp only [State.writeFlag_flag, RegFile.read_write, h.flags]
  haltFlag := by simp only [State.writeFlag_flag, RegFile.read_write, h.haltFlag]

theorem AgreeOnReached.writeCondFlag (x f : Quad) : AgreeOnReached (s.writeCondFlag x f) (t.writeCondFlag x f) :=
  h.writeFlag x 0 f

theorem AgreeOnReached.aluEffect (unit : Unit2) (k0 k1 : OperandKind) (a b : Quad) :
    AgreeOnReached (s.aluEffect unit k0 k1 a b) (t.aluEffect unit k0 k1 a b) := by
  rw [State.aluEffect, State.aluEffect, h.resolve_eq k0 a, h.resolve_eq k1 b]
  exact (h.writeCondFlag a _).writeReg a _

theorem AgreeOnReached.moveEffect (a dst : Quad) (k : OperandKind) (x : Quad) :
    AgreeOnReached (s.moveEffect a dst (s.resolve k x)) (t.moveEffect a dst (t.resolve k x)) := by
  rw [h.resolve_eq k x]
  exact (h.writeCondFlag a noFlag).writeReg dst _

/-- FETCH reads memory, the pc and the parameters, and changes only the pc. -/
theorem AgreeOnReached.fetch : AgreeOnReached s.fetch.2 t.fetch.2 where
  memory := by rw [State.fetch_mem, State.fetch_mem, h.memory]
  counter := by rw [State.fetch_state, State.fetch_state, h.memory, h.counter, h.parameters]
  parameters := by rw [State.fetch_cfg, State.fetch_cfg, h.parameters]
  registers := by rw [State.fetch_reg, State.fetch_reg]; exact h.registers
  flags := by rw [State.fetch_flag, State.fetch_flag]; exact h.flags
  haltFlag := by rw [State.fetch_flag, State.fetch_flag, h.haltFlag]

/-- An instruction whose effects on two agreeing running machines agree answers agreeing machines. -/
theorem AgreeOnReached.unlessHalted (hs : s.halted = false) {s' t' : State} (h' : AgreeOnReached s' t') :
    ∃ u v, s.unlessHalted s' = .next u ∧ t.unlessHalted t' = .next v ∧ AgreeOnReached u v :=
  ⟨s', t', State.unlessHalted_running s' hs, State.unlessHalted_running t' (h.halted_eq.symm.trans hs), h'⟩

theorem AgreeOnReached.exec (hs : s.halted = false) (i : Instr) :
    ∃ u v, Machine.exec i s = .next u ∧ Machine.exec i t = .next v ∧ AgreeOnReached u v := by
  obtain ⟨unit, k0, k1, a, b, hi⟩ | ⟨a, dst, k, x, hi⟩ | rfl | ⟨a, hi⟩ := exec_shape i
  · rw [hi, hi]
    exact h.unlessHalted hs (h.aluEffect unit k0 k1 a b)
  · rw [hi, hi]
    exact h.unlessHalted hs (h.moveEffect a dst k x)
  · exact h.unlessHalted hs ((h.writeCondFlag 0 noFlag).writeFlag 3 3 3)
  · rw [hi, hi]
    exact h.unlessHalted hs (h.writeCondFlag a noFlag)

theorem AgreeOnReached.step (hs : s.halted = false) :
    ∃ u v, Machine.step s = .next u ∧ Machine.step t = .next v ∧ AgreeOnReached u v := by
  rw [step_eq_exec hs, step_eq_exec (h.halted_eq.symm.trans hs), State.fetch_word_congr h.memory h.counter h.parameters]
  exact h.fetch.exec (s.fetch_halted.trans hs) _

end

/-- An instruction leaves every register cell outside column 0, and every flag cell there but the halt flag. -/
theorem exec_next_unreached {i : Instr} {s t : State} (h : exec i s = .next t) (row : Quad) {col : Quad} (hcol : col ≠ 0) :
    t.reg.read row col = s.reg.read row col ∧ ((row, col) ≠ (3, 3) → t.flag.read row col = s.flag.read row col) := by
  obtain ⟨_, ⟨x, f, dst, v, rfl⟩ | ⟨_, rfl⟩ | ⟨x, rfl⟩⟩ := exec_next_cases h
  · exact ⟨s.reg.read_write_column_zero dst v row hcol, fun _ => s.flag.read_write_column_zero x f row hcol⟩
  · exact ⟨rfl, fun hhalt =>
      (RegFile.read_write_other _ hhalt).trans (s.flag.read_write_column_zero 0 noFlag row hcol)⟩
  · exact ⟨rfl, fun _ => s.flag.read_write_column_zero x noFlag row hcol⟩

/-- Settles O32: agreeing machines are halted alike and step to agreeing machines, and an instruction after FETCH leaves the
cells it does not reach. -/
theorem unreachedCellsNeverMatter : Obligations.UnreachedCellsNeverMatter := by
  refine ⟨fun s t h => ?agree, fun s t h row col hcol => ?frame⟩
  case agree =>
    cases hs : s.halted with
    | true => exact .inl ⟨step_halted hs, step_halted (h.halted_eq.symm.trans hs)⟩
    | false => exact .inr (h.step hs)
  case frame =>
    have hframe := exec_next_unreached (step_next_inv h).2 row hcol
    rwa [State.fetch_reg, State.fetch_flag] at hframe

end Sys2Proof.Machine
end

section
/-! The register file built of sixteen cells (spec/10_state.md R33): the decoder's one line enables one cell and picks it out of
the reduction. -/

namespace Sys2Proof.Machine

/-- `decode16` selects one cell (spec/20_memory.md R62). -/
theorem decode16_eq_ite (addr0 addr1 enable j k : Quad) :
    decode16 addr0 addr1 enable j k = if j = addr0 ∧ k = addr1 then enable else 0 :=
  decode4_decode4 addr0 addr1 enable j k

/-- A signal masked by the decoder against the constant 3 passes at the addressed cell only. -/
theorem qmin_decode16 (row col j k v : Quad) :
    qmin (decode16 row col 3 j k) v = if j = row ∧ k = col then v else 0 := by
  rw [decode16_eq_ite]
  split
  case isTrue => exact qmin_three_left v
  case isFalse => exact qmin_zero_left v

/-- Masking sixteen cells with the decoder and reducing them selects the addressed one. -/
theorem reduce4_qmin_decode16 (row col : Quad) (x : Quad → Quad → Quad) :
    (reduce4 fun j => reduce4 fun k => qmin (decode16 row col 3 j k) (x j k)) = x row col := by
  have hcol : ∀ j k, k ≠ col → qmin (decode16 row col 3 j k) (x j k) = 0 := fun j k hk => by
    rw [qmin_decode16, if_neg fun h => hk h.2]
  have hrow : ∀ j, j ≠ row → (reduce4 fun k => qmin (decode16 row col 3 j k) (x j k)) = 0 := fun j hj => by
    rw [reduce4_of_single col (hcol j), qmin_decode16, if_neg fun h => hj h.1]
  rw [reduce4_of_single row hrow, reduce4_of_single col (hcol row), qmin_decode16, if_pos ⟨rfl, rfl⟩]

/-- After the block every cell but the addressed one is as before, and the addressed one follows the enable. -/
theorem regFileBlock_read (f : RegFile) (row col enable v j k : Quad) :
    (regFileBlock f row col enable v).2.read j k = if enable ≠ 0 ∧ j = row ∧ k = col then v else f.read j k := by
  have hcell : (regFileBlock f row col enable v).2.read j k =
      (cellRun (f.read j k) v (qmin (decode16 row col 3 j k) enable)).2 := by
    rw [RegFile.read, regFileBlock, Four.get_ofFn, Four.get_ofFn]
  rw [hcell, cellRun_eq, qmin_decode16]
  by_cases haddr : j = row ∧ k = col <;> simp [haddr]

/-- The block answers its addressed cell after any write. -/
theorem regFileBlock_fst (f : RegFile) (row col enable v : Quad) :
    (regFileBlock f row col enable v).1 = (regFileBlock f row col enable v).2.read row col :=
  reduce4_qmin_decode16 row col (regFileBlock f row col enable v).2.read

/-- The file's operation, cell by cell (R33, R37). -/
theorem RegFile.read_run (f : RegFile) (row col enable v j k : Quad) :
    (f.run row col enable v).2.read j k = if enable ≠ 0 ∧ j = row ∧ k = col then v else f.read j k := by
  by_cases he : enable = 0
  · rw [he, RegFile.run_disabled, if_neg fun h => h.1 rfl]
  · rw [RegFile.run_enabled f row col v he, RegFile.read_write]
    simp only [ne_eq, he, not_false_eq_true, true_and]

/-- Settles O5: block and operation leave the same cells, and both answer the addressed one of them. -/
theorem registerFileBlockRefinesRun : Obligations.RegisterFileBlockRefinesRun := by
  intro f row col enable v
  have hcells : (regFileBlock f row col enable v).2 = (f.run row col enable v).2 :=
    RegFile.ext_read fun j k => (regFileBlock_read f row col enable v j k).trans (f.read_run row col enable v j k).symm
  have hanswer : (regFileBlock f row col enable v).1 = (f.run row col enable v).1 := by
    rw [regFileBlock_fst, hcells, RegFile.run]
  exact Prod.ext hanswer hcells

end Sys2Proof.Machine
end

section
/-! The canonical form of memory is one list for one content (log 2): the first entry is the first cell that is not 0. -/

namespace Sys2Proof.Machine

theorem Memory.readAt_cons_self (k : Nat) (v : Quad) (rest : Memory) : Memory.readAt ((k, v) :: rest) k = v :=
  if_pos rfl

theorem Memory.readAt_cons_other {k n : Nat} (h : k ≠ n) (v : Quad) (rest : Memory) :
    Memory.readAt ((k, v) :: rest) n = Memory.readAt rest n :=
  if_neg h

/-- A canonical list whose first entry is at `k` reads unlike every canonical list that begins above `k`: the entry is not 0. -/
theorem Memory.readAt_head_ne {lo k : Nat} {v : Quad} {rest m : Memory} (hcons : Memory.wfFrom lo ((k, v) :: rest) = true)
    (hm : Memory.wfFrom (k + 1) m = true) : Memory.readAt ((k, v) :: rest) k ≠ Memory.readAt m k := by
  obtain ⟨_, _, hv, _⟩ := Memory.wfFrom_cons.mp hcons
  rwa [Memory.readAt_cons_self, Memory.readAt_below hm k.lt_succ_self]

/-- Canonical lists from one bound on that read alike are equal, by induction on the list: neither can begin below the other, so
that they begin with one entry, and their tails read alike. -/
theorem Memory.eq_of_readAt_eq {lo : Nat} {m m' : Memory} (hm : Memory.wfFrom lo m = true) (hm' : Memory.wfFrom lo m' = true)
    (h : ∀ n, Memory.readAt m n = Memory.readAt m' n) : m = m' := by
  induction m generalizing lo m' with
  | nil =>
    cases m' with
    | nil => rfl
    | cons c' rest' => exact absurd (h c'.1).symm (Memory.readAt_head_ne hm' (Memory.wfFrom_nil _))
  | cons c rest ih =>
    obtain ⟨k, v⟩ := c
    cases m' with
    | nil => exact absurd (h k) (Memory.readAt_head_ne hm (Memory.wfFrom_nil _))
    | cons c' rest' =>
      obtain ⟨k', v'⟩ := c'
      obtain ⟨_, hk64, hv, hrest⟩ := Memory.wfFrom_cons.mp hm
      obtain ⟨_, hk64', hv', hrest'⟩ := Memory.wfFrom_cons.mp hm'
      rcases lt_trichotomy k k' with hlt | rfl | hgt
      · exact absurd (h k) (Memory.readAt_head_ne hm (Memory.wfFrom_cons.mpr ⟨hlt, hk64', hv', hrest'⟩))
      · have hvalue : v = v' := by simpa only [Memory.readAt_cons_self] using h k
        have htail : ∀ n, Memory.readAt rest n = Memory.readAt rest' n := fun n => by
          by_cases hn : k = n
          · rw [← hn, Memory.readAt_below hrest k.lt_succ_self, Memory.readAt_below hrest' k.lt_succ_self]
          · simpa only [Memory.readAt_cons_other hn] using h n
        rw [hvalue, ih hrest hrest' htail]
      · exact absurd (h k').symm (Memory.readAt_head_ne hm' (Memory.wfFrom_cons.mpr ⟨hgt, hk64, hv, hrest⟩))

/-- Settles O9: the canonical form is the one from address 0 on. -/
theorem canonicalMemoryIsUnique : Obligations.CanonicalMemoryIsUnique := fun _ _ => Memory.eq_of_readAt_eq

end Sys2Proof.Machine
end

section
/-! FETCH (spec/40_execution.md R123): the quads it reads, the padding of a short word, and the length table (spec/30_encoding.md
R97, R98). -/

namespace Sys2Proof.Machine

/-- Six quads are fetched where there is an operand word, and only there (spec/30_encoding.md R99). -/
theorem fetchLength_eq_six_iff (cfg : Config) (c k : Quad) : fetchLength cfg c k = 6 ↔ operandCount cfg c k ≠ 0 := by
  unfold fetchLength
  split
  case isTrue hcount => simp [hcount]
  case isFalse hcount => simp [hcount]

/-- There are two lengths (spec/30_encoding.md R98). -/
theorem fetchLength_two_or_six (cfg : Config) (c k : Quad) : fetchLength cfg c k = 2 ∨ fetchLength cfg c k = 6 := by
  rw [fetchLength_eq_two_iff, fetchLength_eq_six_iff]
  exact eq_or_ne _ 0

/-- The word of a six-quad instruction is made of the six quads at the pc. -/
theorem State.fetch_word_long {s : State} (h : fetchLength s.cfg (s.quadAhead 0) (s.quadAhead 1) = 6) :
    s.fetch.1 = { cls := s.quadAhead 0, subop := s.quadAhead 1, rnf0 := s.quadAhead 2, rnf1 := s.quadAhead 3,
                  a := s.quadAhead 4, b := s.quadAhead 5 } := by
  have hcount := (fetchLength_eq_six_iff _ _ _).mp h
  simp only [← s.read_advance, Address.advance_zero] at hcount ⊢
  rw [s.fetch_long hcount]

/-- Whatever the length, the first two quads of the word stand at the pc. -/
theorem State.fetch_opcode (s : State) : s.fetch.1.cls = s.quadAhead 0 ∧ s.fetch.1.subop = s.quadAhead 1 := by
  rcases fetchLength_two_or_six s.cfg (s.quadAhead 0) (s.quadAhead 1) with h | h
  · rw [State.fetch_word_short h]
    exact ⟨rfl, rfl⟩
  · rw [State.fetch_word_long h]
    exact ⟨rfl, rfl⟩

/-- Settles O20: the two words, by length, and what FETCH does to the state. -/
theorem fetchReadsSuccessiveQuads : Obligations.FetchReadsSuccessiveQuads := by
  intro s
  obtain ⟨hcls, hsubop⟩ := s.fetch_opcode
  refine ⟨hcls, hsubop, fun h => ?long, fun h => ?short, s.fetch_pc_linear, s.fetch_mem, s.fetch_reg, s.fetch_flag,
    s.fetch_cfg⟩
  case long =>
    rw [State.fetch_word_long h]
    exact ⟨rfl, rfl, rfl, rfl⟩
  case short =>
    rw [State.fetch_word_short h]
    exact ⟨rfl, rfl, rfl, rfl⟩

/-- The parameter of the function class is its length (spec/30_encoding.md R98). -/
theorem fetchLength_function_two {cfg : Config} (h : cfg.fnClassLength = .two) (k : Quad) : fetchLength cfg 3 k = 2 := by
  rw [fetchLength_eq_two_iff]
  simp [operandCount, romInstr, decode4_eq_ite, h]

theorem fetchLength_function_six {cfg : Config} (h : cfg.fnClassLength = .six) (k : Quad) : fetchLength cfg 3 k = 6 := by
  rw [fetchLength_eq_six_iff]
  simp [operandCount, romInstr, decode4_eq_ite, h]

/-- Settles O19: the length of each class, and within the code class of HLT and of the moves. -/
theorem fetchLengthTable : Obligations.FetchLengthTable := by
  refine fun cfg c k => ⟨rfl, ?_⟩
  obtain rfl | rfl | rfl | rfl := quad_cases c
  · simpa using fetchLength_of_alu_class cfg (.inl rfl) k
  · simpa using fetchLength_of_alu_class cfg (.inr rfl) k
  · obtain rfl | rfl | rfl | rfl := quad_cases k
    · simpa using fetchLength_of_code_move cfg (.inl rfl)
    · simpa using fetchLength_of_code_move cfg (.inr (.inl rfl))
    · simpa using fetchLength_of_code_move cfg (.inr (.inr rfl))
    · simpa using fetchLength_hlt cfg
  · cases hfn : cfg.fnClassLength with
    | two => simpa using fetchLength_function_two hfn k
    | six => simpa using fetchLength_function_six hfn k

end Sys2Proof.Machine
end

section
/-! Steps and runs (spec/40_execution.md R120, R122): a running machine always steps, the step runs the word at the pc, and no run
writes memory. -/

namespace Sys2Proof.Machine

/-- Settles O24: no instruction has a way of its own to stop, and FETCH leaves the machine running. -/
theorem everyRunningMachineSteps : Obligations.EveryRunningMachineSteps := fun _ h =>
  ⟨fun i => exec_running i h, step_running h⟩

/-- A run of any length leaves memory and the parameters, by induction on the number of steps. -/
theorem runSteps_next_fixed {k : Nat} {s t : State} (h : runSteps k s = .next t) : t.mem = s.mem ∧ t.cfg = s.cfg := by
  induction k generalizing s with
  | zero =>
    cases h
    exact ⟨rfl, rfl⟩
  | succ k ih =>
    cases hs : s.halted with
    | true =>
      rw [runSteps_succ, step_halted hs] at h
      cases h
    | false =>
      obtain ⟨u, hu⟩ := step_running hs
      obtain ⟨hmem, hcfg⟩ := step_next_fixed hu
      obtain ⟨hmem', hcfg'⟩ := ih ((runSteps_succ_of_next hu k).symm.trans h)
      exact ⟨hmem'.trans hmem, hcfg'.trans hcfg⟩

/-- Settles O27: memory as a whole is left, and so is each of its cells. -/
theorem runsNeverWriteMemory : Obligations.RunsNeverWriteMemory := by
  intro k s t h
  obtain ⟨hmem, hcfg⟩ := runSteps_next_fixed h
  exact ⟨fun n => by rw [hmem], hcfg⟩

/-- FETCH moves the pc by the length and is otherwise the state before it. -/
theorem State.fetch_state_of_length {s : State} {n : Nat} (h : fetchLength s.cfg (s.quadAhead 0) (s.quadAhead 1) = n) :
    s.fetch.2 = { s with pc := s.pc.advance n } := by
  rw [← h, ← s.read_advance 0, ← s.read_advance 1]
  exact s.fetch_state

/-- A running machine whose fetched word is that of an instruction runs it on the state past the word. -/
theorem step_eq_exec_of_fetch {s : State} (hs : s.halted = false) {i : Instr} {n : Nat} (hword : s.fetch.1 = encode i)
    (hlength : fetchLength s.cfg (s.quadAhead 0) (s.quadAhead 1) = n) :
    step s = exec i { s with pc := s.pc.advance n } := by
  rw [step_eq_exec hs, hword, decode_encode, State.fetch_state_of_length hlength]

/-- Settles O22: where the quads ahead are those of an instruction's word, FETCH answers that word. -/
theorem stepRunsDecodedInstruction : Obligations.StepRunsDecodedInstruction := by
  intro s hs
  refine ⟨fun i hlength hcls hsubop hrnf0 hrnf1 ha hb => ?six, fun i hlength hcls hsubop hrnf0 hrnf1 ha hb => ?two,
    step_eq_exec hs⟩
  case six =>
    rw [← hcls, ← hsubop] at hlength
    have hword : s.fetch.1 = encode i := by
      rw [State.fetch_word_long hlength, hcls, hsubop, hrnf0, hrnf1, ha, hb]
    exact step_eq_exec_of_fetch hs hword hlength
  case two =>
    rw [← hcls, ← hsubop] at hlength
    have hword : s.fetch.1 = encode i := by
      rw [State.fetch_word_short hlength, hcls, hsubop]
      exact (Word6.mk.injEq ..).mpr ⟨rfl, rfl, hrnf0.symm, hrnf1.symm, ha.symm, hb.symm⟩
    exact step_eq_exec_of_fetch hs hword hlength

/-- Six quads that are 0 are the word of ADD R0 R0 (spec/40_execution.md R140). -/
theorem step_of_zero_cells {s : State} (hs : s.halted = false) (hzero : ∀ n, n < 6 → s.quadAhead n = 0) :
    step s = exec (.add .register .register 0 0) { s with pc := s.pc.advance 6 } := by
  have hlength : fetchLength s.cfg (s.quadAhead 0) (s.quadAhead 1) = 6 := by
    rw [hzero 0 (by omega)]
    exact fetchLength_of_alu_class s.cfg (.inl rfl) _
  have hword : s.fetch.1 = encode (.add .register .register 0 0) := by
    rw [State.fetch_word_long hlength, hzero 0 (by omega), hzero 1 (by omega), hzero 2 (by omega), hzero 3 (by omega),
      hzero 4 (by omega), hzero 5 (by omega)]
    rfl
  exact step_eq_exec_of_fetch hs hword hlength

/-- Settles O36: the step is ADD R0 R0 past the six cells, and ADD writes sum and carry. -/
theorem zeroCellsRunAsAdd : Obligations.ZeroCellsRunAsAdd := by
  intro s hs hzero
  obtain ⟨_, _, _, t, hexec, hsum, hcarry, hframe⟩ :=
    addWritesSumAndCarry .register .register 0 0 { s with pc := s.pc.advance 6 } hs
  have hoperand : State.resolve { s with pc := s.pc.advance 6 } .register 0 = s.reg.read 0 0 := rfl
  rw [hoperand, ← Nat.two_mul] at hsum hcarry
  have hpc : t.pc.linear = (s.pc.linear + 6) % 64 := by
    rw [hframe.counter, Address.linear_advance]
  exact ⟨t, (step_of_zero_cells hs hzero).trans hexec, hsum, hcarry, hpc⟩

end Sys2Proof.Machine
end

section
/-! The ALU multiplexer and EXECUTE on the fetched word (spec/40_execution.md R127 to R135): the one-hot lines leave one unit and
one write, those of the instruction that the word stands for. -/

namespace Sys2Proof.Machine

/-- The lines of the subop decoder, enabled, mask four candidates down to the one the subop names. -/
theorem reduce4_qmin_decode4 (d : Quad) (x : Quad → Quad) : (reduce4 fun k => qmin (decode4 d 3 k) (x k)) = x d := by
  rw [reduce4_of_single d fun k hk => by rw [decode4_eq_ite, if_neg hk, qmin_zero_left], decode4_self, qmin_three_left]

/-- A decoder that is not enabled masks every candidate. -/
theorem reduce4_qmin_decode4_disabled (d : Quad) (x : Quad → Quad) :
    (reduce4 fun k => qmin (decode4 d 0 k) (x k)) = 0 := by
  have hzero : ∀ k, qmin (decode4 d 0 k) (x k) = 0 := fun k => by
    rw [decode4_eq_ite, ite_self, qmin_zero_left]
  rw [reduce4_of_single d fun k _ => hzero k, hzero]

/-- A group of units gated by the line of its class (R130). -/
theorem reduce4_qmin_classLine (c i d : Quad) (x : Quad → Quad) :
    (reduce4 fun k => qmin (decode4 d (decode4 c 3 i) k) (x k)) = if i = c then x d else 0 := by
  rw [decode4_eq_ite c]
  split
  case isTrue => exact reduce4_qmin_decode4 d x
  case isFalse => exact reduce4_qmin_decode4_disabled d x

/-- The class selects one of the two groups of units, or none, and the subop the unit (R130). -/
theorem aluMux_eq (instr0 instr1 : Quad) (arith logic : Quad → Quad) :
    aluMux instr0 instr1 arith logic =
      qmax (if 0 = instr0 then arith instr1 else 0) (if 1 = instr0 then logic instr1 else 0) := by
  rw [aluMux, reduce4_qmin_classLine, reduce4_qmin_classLine]

@[simp] theorem mALU_arithmetic (v1 v2 k : Quad) : mALU v1 v2 0 k = arithUnit v1 v2 k := by
  simp [mALU, aluMux_eq]

@[simp] theorem mALU_logic (v1 v2 k : Quad) : mALU v1 v2 1 k = logicUnit v1 v2 k := by
  simp [mALU, aluMux_eq]

/-- The code and the function class select no unit (R131). -/
theorem mALU_unselected (v1 v2 : Quad) {c : Quad} (hc : c = 2 ∨ c = 3) (k : Quad) : mALU v1 v2 c k = (noFlag, 0) := by
  obtain rfl | rfl := hc <;> simp [mALU, aluMux_eq, noFlag]

/-- Settles O14: each class's rule of `M_ALU`, at the four subops. -/
theorem aluMultiplexerSelectsUnit : Obligations.AluMultiplexerSelectsUnit := fun v1 v2 =>
  ⟨mALU_arithmetic v1 v2 0, mALU_arithmetic v1 v2 1, mALU_arithmetic v1 v2 2, mALU_arithmetic v1 v2 3,
   mALU_logic v1 v2 0, mALU_logic v1 v2 1, mALU_logic v1 v2 2, mALU_logic v1 v2 3,
   fun k => ⟨mALU_unselected v1 v2 (.inl rfl) k, mALU_unselected v1 v2 (.inr rfl) k⟩⟩

/-- The operand multiplex of EXECUTE reads what the instruction reads (spec/30_encoding.md R93, R94). -/
@[simp] theorem State.resolveMux_rnf (s : State) (k : OperandKind) (x : Quad) : s.resolveMux k.rnf x = s.resolve k x := by
  cases k <;> simp [State.resolveMux, State.resolve, OperandKind.rnf, decode4_eq_ite]

@[simp] theorem State.gateReg_disabled (s : State) (x v : Quad) : s.gateReg x 0 v = s := rfl

@[simp] theorem State.gateReg_enabled (s : State) (x v : Quad) : s.gateReg x 3 v = s.writeReg x v := rfl

@[simp] theorem State.gateFlag_disabled (s : State) (row col v : Quad) : s.gateFlag row col 0 v = s := rfl

@[simp] theorem State.gateFlag_enabled (s : State) (row col v : Quad) : s.gateFlag row col 3 v = s.writeFlag row col v := rfl

/-- EXECUTE in class 0 or 1: flag and register A take the unit's pair, and no write of the code class is enabled (R132, R133). -/
theorem executeWord_alu {c : Quad} (hc : c = 0 ∨ c = 1) (k : Quad) (k0 k1 : OperandKind) (a b : Quad) (s : State) :
    executeWord (operandWord c k k0 k1 a b) s = s.aluEffect (fun v w => mALU v w c k) k0 k1 a b := by
  obtain rfl | rfl := hc <;>
    simp [executeWord, operandWord, decode4_eq_ite, State.aluEffect, State.writeCondFlag]

/-- EXECUTE in the code class: the flag is cleared and the subop's line enables one write (R132, R134). -/
theorem executeWord_code (k : Quad) (k0 k1 : OperandKind) (a b : Quad) (s : State) :
    executeWord (operandWord 2 k k0 k1 a b) s =
      (((s.writeCondFlag a noFlag).gateReg a (qmax (if 0 = k then 3 else 0) (if 1 = k then 3 else 0))
        (s.resolve k1 b)).gateReg b (if 2 = k then 3 else 0) (s.resolve k0 a)).gateFlag 3 3
        (if 3 = k then 3 else 0) 3 := by
  simp [executeWord, operandWord, decode4_eq_ite, mALU_unselected, State.writeCondFlag]

/-- EXECUTE in the function class is the flag write alone (R135). -/
theorem executeWord_function (k : Quad) (k0 k1 : OperandKind) (a b : Quad) (s : State) :
    executeWord (operandWord 3 k k0 k1 a b) s = s.writeCondFlag a noFlag := by
  simp [executeWord, operandWord, decode4_eq_ite, mALU_unselected, State.writeCondFlag]

/-- An instruction is the halt test and then EXECUTE on its word: the rule of its class, at its subop. -/
theorem exec_eq_executeWord (i : Instr) (s : State) : exec i s = s.unlessHalted (executeWord (encode i) s) := by
  cases i with
  | add | sub | mul | div =>
    rw [encode, executeWord_alu (.inl rfl)]
    simp only [mALU_arithmetic]
    rfl
  | min | max | mod | not =>
    rw [encode, executeWord_alu (.inr rfl)]
    simp only [mALU_logic]
    rfl
  | load | store | copy =>
    rw [encode, executeWord_code]
    rfl
  | hlt =>
    have hword : encode .hlt = operandWord 2 3 .register .register 0 0 := rfl
    rw [hword, executeWord_code]
    rfl
  | call | jmp | jcmp | ret =>
    rw [encode, executeWord_function]
    rfl

/-- Settles O33: the halt test passed, the instruction is EXECUTE on its word. -/
theorem execIsExecuteOfWord : Obligations.ExecIsExecuteOfWord := fun i s h => by
  rw [exec_eq_executeWord, State.unlessHalted_running _ h]

end Sys2Proof.Machine
end

section
/-! The fetch/execute state machine (spec/10_state.md R46, R47): the latch holds the word of the instruction decoded from it. -/

namespace Sys2Proof.Machine

/-- HLT is fetched with the padding of its word (spec/30_encoding.md R100), so that decoding loses nothing of a fetched word. -/
theorem State.encode_decode_fetch (s : State) : encode (decode s.fetch.1) = s.fetch.1 := by
  by_cases hhlt : s.fetch.1.cls = 2 ∧ s.fetch.1.subop = 3
  · obtain ⟨hcls, hsubop⟩ := s.fetch_opcode
    rw [hcls, hsubop] at hhlt
    have hlength : fetchLength s.cfg (s.quadAhead 0) (s.quadAhead 1) = 2 := by rw [hhlt.1, hhlt.2, fetchLength_hlt]
    rw [State.fetch_word_short hlength, hhlt.1, hhlt.2, decode_hlt_word, encode]
  · exact encode_decode hhlt

/-- A step of a running machine is FETCH and then EXECUTE on the latch (spec/40_execution.md R120). -/
theorem step_eq_executeWord {s : State} (h : s.halted = false) : step s = .next (executeWord s.fetch.1 s.fetch.2) := by
  rw [step_eq_exec h, exec_eq_executeWord, State.unlessHalted_running _ (s.fetch_halted.trans h), s.encode_decode_fetch]

theorem fsmTick_fetch_halted {s : State} (h : s.halted = true) :
    fsmTick { core := s, phase := .fetch } = .fault .halted :=
  if_pos h

theorem fsmTick_fetch_running {s : State} (h : s.halted = false) :
    fsmTick { core := s, phase := .fetch } = .next { core := s.fetch.2, phase := .execute s.fetch.1 } :=
  if_neg (Bool.eq_false_iff.mp h)

theorem fsmTick_execute (s : State) (w : InstrWord) :
    fsmTick { core := s, phase := .execute w } = .next { core := executeWord w s, phase := .fetch } :=
  rfl

/-- Settles O34: the halt test stops both machines, and the two ticks are the two halves of the step. -/
theorem fsmCycleIsStep : Obligations.FsmCycleIsStep := by
  intro s
  cases hs : s.halted with
  | true => rw [fsmCycle, fsmTick_fetch_halted hs, step_halted hs]
  | false =>
    rw [fsmCycle, fsmTick_fetch_running hs, step_eq_executeWord hs]
    exact fsmTick_execute s.fetch.2 s.fetch.1

end Sys2Proof.Machine
end

section
/-! The half-divider (spec/41_arithmetic.md R153): its `MAX`-reduction picks the greatest candidate that passes the comparator. -/

namespace Sys2Proof.Machine

/-- A reduction is one of its candidates. -/
theorem reduce4_mem (x : Quad → Quad) : ∃ k, reduce4 x = x k := by
  have hmax : ∀ u v : Quad, qmax u v = u ∨ qmax u v = v := fun u v => (ite_eq_or_eq _ v u).symm
  rcases hmax (x 0) (qmax (x 1) (qmax (x 2) (x 3))) with h | h
  · exact ⟨0, h⟩
  rcases hmax (x 1) (qmax (x 2) (x 3)) with h' | h'
  · exact ⟨1, h.trans h'⟩
  rcases hmax (x 2) (x 3) with h'' | h''
  · exact ⟨2, h.trans (h'.trans h'')⟩
  · exact ⟨3, h.trans (h'.trans h'')⟩

/-- No candidate exceeds the reduction. -/
theorem le_reduce4 (x : Quad → Quad) (k : Quad) : (x k).val ≤ (reduce4 x).val := by
  obtain rfl | rfl | rfl | rfl := quad_cases k <;> simp [reduce4]

/-- Where each candidate is its index or, failing the test, 0, and 0 passes, the reduction is the greatest index that passes. -/
theorem reduce4_greatest (p : Quad → Prop) [DecidablePred p] (hzero : p 0) :
    p (reduce4 fun k => if p k then k else 0) ∧
      ∀ k : Quad, (reduce4 fun k => if p k then k else 0).val < k.val → ¬ p k := by
  constructor
  · obtain ⟨k, hk⟩ := reduce4_mem fun k => if p k then k else 0
    rw [hk]
    split
    case isTrue hp => exact hp
    case isFalse => exact hzero
  · intro k hlt hp
    have hle := le_reduce4 (fun k => if p k then k else 0) k
    rw [if_pos hp] at hle
    exact absurd hlt (Nat.not_lt.mpr hle)

/-- The quotient is the greatest q with q*B mod 4 ≤ A: the multiple of index 0 is 0 and passes (decision D6). -/
theorem divQuotient_greatest (a b : Quad) :
    (divQuotient a b).val * b.val % 4 ≤ a.val ∧
      ∀ k : Quad, (divQuotient a b).val < k.val → a.val < k.val * b.val % 4 := by
  have hmultiple : ∀ k : Quad, (multiple k b).val = k.val * b.val % 4 := fun k => by
    rw [multiple_val, Nat.mul_comm]
  obtain ⟨hle, hgreatest⟩ := reduce4_greatest (fun k => (multiple k b).val ≤ a.val) (Nat.zero_le a.val)
  rw [hmultiple] at hle
  exact ⟨hle, fun k hk => by rw [← hmultiple]; exact Nat.lt_of_not_le (hgreatest k hk)⟩

/-- The remainder is the dividend less the multiple of the quotient, which does not exceed it (decision D7). -/
theorem divRemainder_val (a b : Quad) : (divRemainder a b).val = a.val - (divQuotient a b).val * b.val % 4 := by
  have hle := (divQuotient_greatest a b).1
  rw [divRemainder, subDiff_val, multiple_val, Nat.mul_comm b.val]
  omega

/-- Settles O13: one rule per output of the multiplier and of the divider. -/
theorem halfMultiplierAndDividerArithmetic : Obligations.HalfMultiplierAndDividerArithmetic := fun a b =>
  ⟨mulCarry_val a b, mulProduct_val a b, divQuotient_greatest a b, divRemainder_val a b⟩

/-- Settles O43: DIV is the ALU effect of the half-divider. -/
theorem divWritesQuotientAndRemainder : Obligations.DivWritesQuotientAndRemainder := by
  intro k0 k1 a b s h
  obtain ⟨hle, hgreatest⟩ := divQuotient_greatest (s.resolve k0 a) (s.resolve k1 b)
  refine ⟨decode_encode (.div k0 k1 a b), fetchLength_of_alu_class s.cfg (.inl rfl) 3, asmRegisters_val 0 3 a b,
    s.aluEffect halfDivider k0 k1 a b, State.unlessHalted_running _ h, ?quotient, ?greatest, ?remainder,
    s.aluEffect_onlyWrites halfDivider k0 k1 a b⟩
  case quotient => rw [State.aluEffect_result, halfDivider]; exact hle
  case greatest => rw [State.aluEffect_result, halfDivider]; exact hgreatest
  case remainder => rw [State.aluEffect_condFlag, State.aluEffect_result, halfDivider, divRemainder_val]

end Sys2Proof.Machine
end

section
/-! Words and addresses at the boundary of the machine: digits and linear addresses (spec/20_memory.md R63), the assembler's
layouts (spec/30_encoding.md R102), the worked words (R113) and what each RNF quad reads (R93, R94). -/

namespace Sys2Proof.Machine

/-- Settles O11: both conversions end at the linear value they began with, and a triple is determined by its linear value. -/
theorem addressDigitsAreLinearAddresses : Obligations.AddressDigitsAreLinearAddresses :=
  ⟨fun a => ⟨a.linear_lt, Address.linear_injective (Address.linear_ofLinear a.linear_lt)⟩,
   fun _ => Address.linear_ofLinear⟩

/-- Settles O16: every layout but those of HLT and LOAD is that of two registers. -/
theorem assemblerLayouts : Obligations.AssemblerLayouts :=
  ⟨rfl, fun x y => ⟨assemble_load_val x y, asmRegisters_val 2 1 x y, asmRegisters_val 2 2 y x, asmRegisters_val 0 0 x y,
    asmRegisters_val 0 1 x y, asmRegisters_val 0 2 x y, asmRegisters_val 0 3 x y, asmRegisters_val 1 0 x y,
    asmRegisters_val 1 1 x y, asmRegisters_val 1 2 x y, asmRegisters_val 1 3 x 0⟩⟩

/-- Settles O17: the four lines have the layouts of LOAD, ADD and HLT, and each word is that of the instruction named. -/
theorem workedWordsDecode : Obligations.WorkedWordsDecode := by
  obtain ⟨hhlt, hlayouts⟩ := assemblerLayouts
  refine ⟨?lines, decode_encode (.load .register .immediate 0 0), decode_encode (.load .register .immediate 1 2),
    decode_encode (.add .register .register 0 1), decode_encode (.max .reserved .immediate 2 1),
    decode_encode (.jmp .register .register 1 2), decode_encode .hlt⟩
  case lines =>
    obtain ⟨hload, _⟩ := hlayouts 0 0
    obtain ⟨hload', _⟩ := hlayouts 1 2
    obtain ⟨_, _, _, hadd, _⟩ := hlayouts 0 1
    exact congrArg₂ List.cons hload (congrArg₂ List.cons hload' (congrArg₂ List.cons hadd (congrArg (· :: []) hhlt)))

/-- Settles O18: the four kinds of operand; a word whose opcode is not HLT's is the word of its instruction. -/
theorem operandResolutionByKind : Obligations.OperandResolutionByKind := by
  refine fun s x => ⟨s.readReg_eq x, s.readFlag_eq x 0, rfl, rfl, ?fields⟩
  rintro w _ hopcode rfl
  have hnot : ¬ (w.cls = 2 ∧ w.subop = 3) := not_and_or.mpr hopcode
  rw [encode_decode hnot]
  exact ⟨rfl, rfl, rfl, rfl⟩

end Sys2Proof.Machine
end

section
/-! A fresh machine (spec/10_state.md R50, spec/70_reset_and_hazards.md R260) and what a host sees of any machine (spec/
10_state.md R36, spec/60_exceptions.md R244). -/

namespace Sys2Proof.Machine

/-- The invariant does not depend on the parameters, so that a machine constructed with any has it. -/
theorem State.reset_inv (cfg : Config) : State.Inv { State.reset with cfg := cfg } where
  memoryCanonical := State.reset_memory_wf
  unreachedRegistersZero row col _ := RegFile.read_zero row col
  unreachedFlagsZero row col _ _ := RegFile.read_zero row col
  haltFlagZeroOrThree := .inl (RegFile.read_zero 3 3)

/-- Settles O29: reset is the construction with the spec's default parameters. -/
theorem resetSatisfiesMachineInvariant : Obligations.ResetSatisfiesMachineInvariant :=
  State.reset_inv Config.specDefault

/-- Settles O30: no memory cell is listed, and both files are the fresh file. -/
theorem resetLeavesEveryCellZero : Obligations.ResetLeavesEveryCellZero :=
  ⟨fun _ => rfl, fun row col => ⟨RegFile.read_zero row col, RegFile.read_zero row col⟩, rfl, rfl⟩

/-- The dump has four rows of four, and the cell (row, column) at place `col` of row `row` (R36). -/
theorem RegFile.dump_spec (f : RegFile) (row col : Quad) :
    f.dump.length = 4 ∧
      ∃ cells, f.dump[row.val]? = some cells ∧ cells.length = 4 ∧ cells[col.val]? = some (f.read row col) := by
  refine ⟨rfl, ?_⟩
  obtain rfl | rfl | rfl | rfl := quad_cases row <;> refine ⟨_, rfl, rfl, ?_⟩ <;>
    obtain rfl | rfl | rfl | rfl := quad_cases col <;> rfl

/-- Settles O39: the rule of a dump, for each of the two files. -/
theorem dumpsAreRowMajor : Obligations.DumpsAreRowMajor := by
  intro s row col
  obtain ⟨hregs, hregCell⟩ := s.reg.dump_spec row col
  obtain ⟨hflags, hflagCell⟩ := s.flag.dump_spec row col
  exact ⟨hregs, hflags, hregCell, hflagCell⟩

/-- The cells a host sees are those at the digit triples (spec/20_memory.md R63). -/
theorem State.observation_mem (s : State) (a : Address) :
    s.observation.mem[a.linear]? = some (Memory.read s.mem a) := by
  rw [State.observation, List.getElem?_map, List.getElem?_range a.linear_lt, Option.map_some, Memory.read]

end Sys2Proof.Machine
end

section
/-! The refusals of a load (spec/20_memory.md R75) and the moves of the host (spec/60_exceptions.md R244): what each answers, and
what every sequence of them keeps. -/

namespace Sys2Proof

/-- An integer that is no quad makes a raw word ill-formed (R75 (b)). -/
theorem RawWord.not_wellFormed_of_ge {w : RawWord}
    (h : 4 ≤ w.cls ∨ 4 ≤ w.subop ∨ 4 ≤ w.rnf0 ∨ 4 ≤ w.rnf1 ∨ 4 ≤ w.a ∨ 4 ≤ w.b) : w.wellFormed = false := by
  rw [Bool.eq_false_iff, ne_eq, RawWord.wellFormed_iff]
  omega

end Sys2Proof

namespace Sys2Proof.Machine

/-- An image over 64 quads is refused, whatever its integers (R75 (a)). -/
theorem State.load_of_too_long (s : State) {code : List RawWord} (h : 64 < 6 * code.length) :
    s.load code = .refused .imageTooLong := by
  have hfits : ¬ imageFits code = true := by simpa [imageFits] using h
  rw [State.load, if_neg hfits]

/-- An image that fits is refused for an ill-formed word (R75 (b)). -/
theorem State.load_of_bad_word (s : State) {code : List RawWord} (hfit : 6 * code.length ≤ 64) {w : RawWord} (hw : w ∈ code)
    (hbad : w.wellFormed = false) : s.load code = .refused .outOfDomain := by
  have hfits : imageFits code = true := decide_eq_true hfit
  have hall : ¬ code.all RawWord.wellFormed = true := fun hall =>
    Bool.eq_false_iff.mp hbad (List.all_eq_true.mp hall w hw)
  rw [State.load, if_pos hfits, if_neg hall]

/-- An image that is not well-formed is refused, for its length or for one of its words (R75). -/
theorem State.load_of_not_imageWellFormed (s : State) {code : List RawWord} (h : imageWellFormed code = false) :
    ∃ r, s.load code = .refused r := by
  by_cases hlength : 64 < 6 * code.length
  · exact ⟨_, s.load_of_too_long hlength⟩
  · have hbad : ∃ w ∈ code, ¬ w.wellFormed = true := by
      by_contra hnone
      push Not at hnone
      exact Bool.eq_false_iff.mp h ((imageWellFormed_iff code).mpr ⟨Nat.le_of_not_lt hlength, hnone⟩)
    obtain ⟨w, hw, hwf⟩ := hbad
    exact ⟨_, s.load_of_bad_word (Nat.le_of_not_lt hlength) hw (Bool.eq_false_iff.mpr hwf)⟩

/-- Settles O38: the refusal of the length, and that of a word with an integer above 3. -/
theorem badImageIsRefused : Obligations.BadImageIsRefused := fun _ s =>
  ⟨fun hlength _ => s.load_of_too_long hlength,
   fun hfit ⟨_, hw, hge⟩ => s.load_of_bad_word hfit hw (RawWord.not_wellFormed_of_ge hge),
   fun hlength => ⟨_, s.load_of_too_long hlength⟩⟩

/-- What a load can do to a core: it writes memory and nothing else, and keeps the canonical form (R74, R76). -/
structure WritesMemoryOnly (s t : State) : Prop where
  registers : t.reg = s.reg
  flags : t.flag = s.flag
  counter : t.pc = s.pc
  parameters : t.cfg = s.cfg
  memoryCanonical : Memory.wf s.mem = true → Memory.wf t.mem = true

theorem State.loadCell_writesMemoryOnly (s : State) (a : Address) (v : Quad) : WritesMemoryOnly s (s.loadCell a v) where
  registers := s.loadCell_reg v a
  flags := s.loadCell_flag v a
  counter := s.loadCell_pc v a
  parameters := s.loadCell_cfg v a
  memoryCanonical := State.loadCell_wf a v

theorem State.load_writesMemoryOnly {s t : State} {code : List RawWord} (h : s.load code = .next t) :
    WritesMemoryOnly s t := by
  obtain ⟨_, rfl⟩ := State.load_next h
  obtain ⟨hreg, hflag, hpc, hcfg⟩ := s.loadFrom_frame 0 (code.map RawWord.quads)
  exact ⟨hreg, hflag, hpc, hcfg, State.loadFrom_wf 0 _⟩

/-- A load is no access to the files, so that it keeps the invariant. -/
theorem WritesMemoryOnly.inv {s t : State} (h : WritesMemoryOnly s t) (hs : s.Inv) : t.Inv :=
  hs.of_files_eq h.memoryCanonical h.registers h.flags

/-- All that a move can do to a session: leave it, load memory before the first step, or make a step of the core and mark the run
as started (R244). -/
theorem Session.move_cases (h : Session) (m : HostMove) :
    (h.move m).1 = h ∨
    (m ≠ .step ∧ h.started = false ∧ ∃ t, WritesMemoryOnly h.core t ∧ (h.move m).1 = { h with core := t }) ∨
    (m = .step ∧ ∃ t, Machine.step h.core = .next t ∧ (h.move m).1 = { core := t, started := true }) := by
  cases m with
  | load code =>
    obtain hsame | ⟨hs, t, hload, hmove⟩ := h.loadWith_cases (h.core.load code)
    · exact .inl hsame
    · exact .inr (.inl ⟨nofun, hs, t, State.load_writesMemoryOnly hload, congrArg Prod.fst hmove⟩)
  | loadCell a v =>
    obtain hsame | ⟨hs, t, hload, hmove⟩ := h.loadWith_cases (.next (h.core.loadCell a v))
    · exact .inl hsame
    · cases hload
      exact .inr (.inl ⟨nofun, hs, _, h.core.loadCell_writesMemoryOnly a v, congrArg Prod.fst hmove⟩)
  | step =>
    obtain hsame | ⟨t, hstep, hmove⟩ := h.stepOnce_cases
    · exact .inl hsame
    · exact .inr (.inr ⟨rfl, t, hstep, congrArg Prod.fst hmove⟩)
  | observe => exact .inl rfl

/-- What every move keeps, every sequence of moves keeps. -/
theorem Session.moves_keep {P : Session → Prop} (hmove : ∀ h m, P h → P (h.move m).1) {h : Session} (hP : P h)
    (ms : List HostMove) : P (h.moves ms) := by
  induction ms generalizing h with
  | nil => exact hP
  | cons m rest ih => exact ih (hmove h m hP)

theorem Session.move_inv (h : Session) (m : HostMove) (hinv : h.core.Inv) : (h.move m).1.core.Inv := by
  obtain hsame | ⟨_, _, t, hload, hmove⟩ | ⟨_, t, hstep, hmove⟩ := h.move_cases m
  · rwa [hsame]
  · rw [hmove]
    exact hload.inv hinv
  · rw [hmove]
    exact hinv.step hstep

/-- Settles O55: construction is reset with parameters, and each move keeps the invariant. -/
theorem everySessionKeepsInvariant : Obligations.EverySessionKeepsInvariant :=
  ⟨fun cfg => ⟨State.reset_inv cfg, rfl⟩,
   fun _ ms hinv => Session.moves_keep (P := fun h => h.core.Inv) Session.move_inv hinv ms⟩

/-- A move in a started run leaves it started and leaves memory: loads are refused, and a step writes none (R76). -/
theorem Session.move_started {h : Session} (m : HostMove) (hs : h.started = true) :
    (h.move m).1.started = true ∧ (h.move m).1.core.mem = h.core.mem := by
  obtain hsame | ⟨_, hfresh, _⟩ | ⟨_, t, hstep, hmove⟩ := h.move_cases m
  · rw [hsame]
    exact ⟨hs, rfl⟩
  · exact absurd hs (Bool.eq_false_iff.mp hfresh)
  · rw [hmove]
    exact ⟨rfl, (step_next_fixed hstep).1⟩

theorem Session.moves_started {h : Session} (ms : List HostMove) (hs : h.started = true) :
    (h.moves ms).started = true ∧ (h.moves ms).core.mem = h.core.mem := by
  refine Session.moves_keep (P := fun g => g.started = true ∧ g.core.mem = h.core.mem) ?_ ⟨hs, rfl⟩ ms
  rintro g m ⟨hg, hmem⟩
  obtain ⟨hstarted, hsame⟩ := Session.move_started m hg
  exact ⟨hstarted, hsame.trans hmem⟩

/-- Every move but `step` leaves the files, the pc, the parameters and whether the run has started. -/
theorem Session.move_frame (h : Session) {m : HostMove} (hm : m ≠ .step) :
    (h.move m).1.core.reg = h.core.reg ∧ (h.move m).1.core.flag = h.core.flag ∧ (h.move m).1.core.pc = h.core.pc ∧
    (h.move m).1.core.cfg = h.core.cfg ∧ (h.move m).1.started = h.started := by
  obtain hsame | ⟨_, _, t, hload, hmove⟩ | ⟨hstep, _⟩ := h.move_cases m
  · rw [hsame]
    exact ⟨rfl, rfl, rfl, rfl, rfl⟩
  · rw [hmove]
    exact ⟨hload.registers, hload.flags, hload.counter, hload.parameters, rfl⟩
  · exact absurd hstep hm

/-- Settles O53: both loads of a started run are refused, its moves leave memory, and only `step` touches the rest. -/
theorem hostLoadsOnlyBeforeFirstStep : Obligations.HostLoadsOnlyBeforeFirstStep := by
  refine ⟨fun h code a v hs => ⟨Session.loadWith_started hs (h.core.load code),
    Session.loadWith_started hs (.next (h.core.loadCell a v))⟩, fun h ms hs => ?started, fun h _ => h.move_frame⟩
  case started =>
    obtain ⟨hstarted, hmem⟩ := Session.moves_started ms hs
    exact ⟨hstarted, fun n => by rw [hmem]⟩

/-- Before the first step an admitted load puts its core into the session. -/
theorem Session.loadWith_next {h : Session} (hs : h.started = false) (t : State) :
    h.loadWith (.next t) = ({ h with core := t }, .loaded) := by
  simp [Session.loadWith, hs]

theorem Session.loadWith_refused {h : Session} (hs : h.started = false) (r : Refusal) :
    h.loadWith (.refused r) = (h, .refused r) := by
  simp [Session.loadWith, hs]

theorem Session.move_step_next {h : Session} {t : State} (ht : Machine.step h.core = .next t) :
    h.move .step = ({ core := t, started := true }, .ran) := by
  rw [Session.move, Session.stepOnce, ht]

theorem Session.move_step_halted {h : Session} (hh : h.core.halted = true) : h.move .step = (h, .halted) := by
  rw [Session.move, Session.stepOnce, step_halted hh]

/-- The answers of the two loads before the first step (R75, R244). -/
theorem Session.move_load_admitted {h : Session} (hs : h.started = false) {code : List RawWord}
    (hcode : imageWellFormed code = true) :
    (h.move (.load code)).2 = .loaded ∧ h.core.load code = .next (h.move (.load code)).1.core := by
  have hload := h.core.load_of_imageWellFormed hcode
  rw [Session.move, hload, Session.loadWith_next hs]
  exact ⟨rfl, rfl⟩

theorem Session.move_load_refused {h : Session} (hs : h.started = false) {code : List RawWord}
    (hcode : imageWellFormed code = false) :
    (h.move (.load code)).1 = h ∧ ∃ r, (h.move (.load code)).2 = .refused r := by
  obtain ⟨r, hload⟩ := h.core.load_of_not_imageWellFormed hcode
  rw [Session.move, hload, Session.loadWith_refused hs]
  exact ⟨rfl, r, rfl⟩

theorem Session.move_loadCell {h : Session} (hs : h.started = false) (a : Address) (v : Quad) :
    h.move (.loadCell a v) = ({ h with core := h.core.loadCell a v }, .loaded) :=
  Session.loadWith_next hs _

/-- A step of a running machine answers RAN, and the session takes the core's step (R244). -/
theorem Session.move_step_running {h : Session} (hrun : h.core.halted = false) :
    (h.move .step).2 = .ran ∧ (h.move .step).1.started = true ∧
      Machine.step h.core = .next (h.move .step).1.core := by
  obtain ⟨t, ht⟩ := step_running hrun
  rw [Session.move_step_next ht]
  exact ⟨rfl, rfl, ht⟩

/-- Settles O54: the answer of each move, by whether the image is admitted and whether the machine is halted. -/
theorem hostMovesAnswer : Obligations.HostMovesAnswer := by
  refine ⟨fun h code a v hs => ?beforeFirstStep,
    fun h => ⟨Session.move_step_running, Session.move_step_halted⟩, fun h => ?observe⟩
  case beforeFirstStep =>
    refine ⟨Session.move_load_admitted hs, Session.move_load_refused hs, Session.move_loadCell hs a v, fun hwf n => ?_⟩
    rw [Session.move_loadCell hs, State.loadCell_mem, Memory.readAt_write hwf]
  case observe =>
    have hlength : h.core.observation.mem.length = 64 := by
      rw [State.observation, List.length_map, List.length_range]
    exact ⟨rfl, h.core.observation, rfl, rfl, rfl, rfl, rfl, hlength, h.core.observation_mem⟩

end Sys2Proof.Machine
end
